-- ==== Sys2Proof/Word.lean ====
section
/-! DEFINITION. The bit-vector types of the block (spec/00_scope.md R5, R6, R7) and their plainest arithmetic. -/

namespace Sys2Proof

/-- `WORD_W` = 5: a data word, unsigned, 0..31 (00_scope.md R5, R7). -/
abbrev Word := BitVec 5

/-- `ADDR_W` = 3: a register-file index, 0..7 (00_scope.md R5, 20_memory.md R29). -/
abbrev Idx := BitVec 3

/-- `OPC_W` = 4: an opcode (00_scope.md R5). -/
abbrev Opcode := BitVec 4

/-- `INSTR_W` = 12: an instruction word `I = op ++ a ++ imm` (30_encoding.md R43). -/
abbrev InstrWord := BitVec 12

/-- The register file `M[0..7]`: `NREGS` = 8 words (10_state.md R13). -/
abbrev RegFile := Vector Word 8

/-- `word(n)` of 00_scope.md R7: the 5-bit vector whose unsigned value is `n`, for `0 <= n <= 31`. -/
def word (n : Int) : Word := BitVec.ofNat 5 n.toNat

end Sys2Proof
end

