-- ==== Sys2Proof/Config.lean ====
section
/-! DEFINITION. What the spec's decisions fix for this implementation. The spec leaves no value free
(40_control.md R64, 93_implementation_defined.md), so there is no opaque constant here. -/

namespace Sys2Proof.Config

/-- `ALU_W`: the signed width that holds the ALU's intermediate results (00_scope.md R5, decision D12). -/
def aluW : Nat := 16

/-- The register file after reset: the two seeds in slots 0 and 1, the rest zero
(70_reset_and_hazards.md R94, decision D13). -/
def resetM : RegFile := #v[0b00001#5, 0b00010#5, 0#5, 0#5, 0#5, 0#5, 0#5, 0#5]

/-- The accumulator after reset (70_reset_and_hazards.md R94). -/
def resetAcc : Word := 0b00000#5

end Sys2Proof.Config
end

