-- ==== Sys2Proof/Syntax.lean ====
section
/-! DEFINITION. The whole syntax: the instructions of spec/opcode_table.json, their operation classes
(40_control.md R59), and the step's input (00_scope.md R9, 10_state.md R23, R24). -/

namespace Sys2Proof

/-- One constructor per operation of 30_encoding.md R47, and one, `invalid`, for the five INVALID rows of
the opcode table (40_control.md R59 gives them one member). A constructor carries the fields that the
decoder reads and validates (30_encoding.md R53). -/
inductive Instr where
  | halt
  | load (a : Idx)
  | store (a : Idx) (imm : Word)
  | add (a : Idx) (imm : Word)
  | sub (a : Idx) (imm : Word)
  | mul (a : Idx) (imm : Word)
  | div (a : Idx) (imm : Word)
  /-- `fa` is the follow-up token (30_encoding.md R51). -/
  | compareTwo (a fa : Idx)
  | compareAll
  /-- `a` is validated and its value unused; the target is `fa` (44_clear.md R80, decision D7). -/
  | clearOne (a fa : Idx)
  | clearAll
  /-- An opcode outside the enumerated set (30_encoding.md R48, R49). -/
  | invalid (op : Opcode)
  deriving DecidableEq, Repr

/-- The closed enumeration of 40_control.md R59. -/
inductive OpClass where
  | halt | load | store | add | sub | mul | div
  | compareTwo | compareAll | clearOne | clearAll | invalid
  deriving DecidableEq, Repr

/-- The operation class of an instruction. -/
def Instr.opClass : Instr → OpClass
  | .halt => .halt
  | .load _ => .load
  | .store _ _ => .store
  | .add _ _ => .add
  | .sub _ _ => .sub
  | .mul _ _ => .mul
  | .div _ _ => .div
  | .compareTwo _ _ => .compareTwo
  | .compareAll => .compareAll
  | .clearOne _ _ => .clearOne
  | .clearAll => .clearAll
  | .invalid _ => .invalid

/-- The operation name, which is the assembler's mnemonic (30_encoding.md R55). -/
def OpClass.mnemonic : OpClass → String
  | .halt => "HALT"
  | .load => "LOAD"
  | .store => "STORE"
  | .add => "ADD"
  | .sub => "SUB"
  | .mul => "MUL"
  | .div => "DIV"
  | .compareTwo => "COMPARE_TWO"
  | .compareAll => "COMPARE_ALL"
  | .clearOne => "CLEAR_ONE"
  | .clearAll => "CLEAR_ALL"
  | .invalid => "INVALID"

/-- `Tok n`: the value of an `n`-bit field as the decoder's front end delivers it (00_scope.md R9). -/
inductive Tok (n : Nat) where
  | bits (b : BitVec n)
  | malformed
  deriving DecidableEq, Repr

/-- Which token a `MalformedToken` error names (60_exceptions.md R83). -/
inductive TokenField where
  | opcode | address | operand | followUp
  deriving DecidableEq, Repr

/-- The input bundle `In` of one step (10_state.md R23). -/
structure StepInput where
  op : Tok 4
  a : Tok 3
  imm : Tok 5
  fa : Tok 3
  deriving DecidableEq, Repr

/-- A token as the host supplies it: a string of characters, leftmost first (30_encoding.md R38). -/
abbrev TokenText := List Char

/-- The four tokens of one instruction as text, before validation (30_encoding.md R38, R53). A token
the host is not asked for may hold any text. -/
structure TextInput where
  op : TokenText
  a : TokenText
  imm : TokenText
  fa : TokenText
  deriving DecidableEq, Repr

/-- The input signals that present one instruction: each field's bits and its malformed mark
(10_state.md R24). `in_valid` is the presence of such a record, and `rst` is a stimulus of its own. -/
structure InSignals where
  inOp : BitVec 4
  inOpBad : Bool
  inA : BitVec 3
  inABad : Bool
  inImm : BitVec 5
  inImmBad : Bool
  inFa : BitVec 3
  inFaBad : Bool
  deriving DecidableEq, Repr

/-- An encoded instruction: the 12-bit word and, where the opcode takes one, the follow-up token
(30_encoding.md R51, R55). -/
structure Encoded where
  word : InstrWord
  followUp : Option Idx
  deriving DecidableEq, Repr

end Sys2Proof
end

