-- ==== Sys2Proof/WellFormed.lean ====
section
/-! DEFINITION. Well-formedness of an instruction. Field widths are in the types; the one check left is
that `invalid` carries an opcode that the table maps to no operation. -/

namespace Sys2Proof

/-- The five opcodes of the INVALID rows of spec/opcode_table.json (30_encoding.md R48, R49). -/
def invalidOpcodes : List Opcode := [0b0110#4, 0b1100#4, 0b1101#4, 0b1110#4, 0b1111#4]

/-- Whether an instruction term stands for a word of the opcode table. -/
def Instr.wellFormed : Instr → Bool
  | .halt => true
  | .load _ => true
  | .store _ _ => true
  | .add _ _ => true
  | .sub _ _ => true
  | .mul _ _ => true
  | .div _ _ => true
  | .compareTwo _ _ => true
  | .compareAll => true
  | .clearOne _ _ => true
  | .clearAll => true
  | .invalid op => invalidOpcodes.contains op

end Sys2Proof
end

