-- ==== Sys2Proof/Decode.lean ====
section
/-! DEFINITION. The decoder's front end (token validation and codec, 30_encoding.md R38 to R42), the
instruction format (R43 to R53), the decode procedure (40_control.md R58), and the encoder (R55). -/

namespace Sys2Proof

/-! ### Token validation and codec -/

/-- A character of a binary string: '0' or '1'. -/
def isBinaryChar (c : Char) : Bool := c == '0' || c == '1'

/-- `validate_binary(token, n)` (30_encoding.md R38). Nothing is trimmed (decision D20). -/
def validateBinary (t : TokenText) (n : Nat) : Bool := t.length == n && t.all isBinaryChar

/-- `to_int` (30_encoding.md R40): the sum of `2^(n-1-k)` over the positions `k` that hold '1'. -/
def toInt : TokenText → Nat
  | [] => 0
  | c :: rest => (if c = '1' then 2 ^ rest.length else 0) + toInt rest

/-- `to_fixed_width` (30_encoding.md R41): never truncated; on overflow the all-zero sentinel and `true`. -/
def toFixedWidth (v w : Nat) : BitVec w × Bool :=
  if 2 ^ w ≤ v then (0#w, true) else (BitVec.ofNat w v, false)

/-- The binary string of a vector, the leftmost character most significant (00_scope.md R6). -/
def spell {n : Nat} (b : BitVec n) : TokenText :=
  (List.range n).map fun k => if b.getMsbD k then '1' else '0'

/-- `to_fixed_width` with its result as the canonical string of the source (30_encoding.md R41). -/
def toFixedWidthText (v w : Nat) : TokenText × Bool := (spell (toFixedWidth v w).1, (toFixedWidth v w).2)

/-- The front end on one token: `Bits(b)` when it validates, else `Malformed` (30_encoding.md R38). -/
def Tok.ofText (n : Nat) (t : TokenText) : Tok n :=
  if validateBinary t n then .bits (BitVec.ofNat n (toInt t)) else .malformed

/-- The front end on the four tokens of an instruction. -/
def StepInput.ofText (t : TextInput) : StepInput where
  op := Tok.ofText 4 t.op
  a := Tok.ofText 3 t.a
  imm := Tok.ofText 5 t.imm
  fa := Tok.ofText 3 t.fa

/-- A field from its signals: the malformed mark decides, and the bits under a mark mean nothing
(10_state.md R24). -/
def Tok.ofSignals {n : Nat} (b : BitVec n) (bad : Bool) : Tok n := if bad then .malformed else .bits b

/-- The input bundle that the input signals carry (10_state.md R24). -/
def StepInput.ofSignals (g : InSignals) : StepInput where
  op := Tok.ofSignals g.inOp g.inOpBad
  a := Tok.ofSignals g.inA g.inABad
  imm := Tok.ofSignals g.inImm g.inImmBad
  fa := Tok.ofSignals g.inFa g.inFaBad

/-! ### The 12-bit format -/

/-- `I[11:8]` (30_encoding.md R43, R46). -/
def opField (I : InstrWord) : Opcode := I.extractLsb' 8 4

/-- `I[7:5]` (30_encoding.md R43, R44). -/
def aField (I : InstrWord) : Idx := I.extractLsb' 5 3

/-- `I[4:0]` (30_encoding.md R43, R45). -/
def immField (I : InstrWord) : Word := I.extractLsb' 0 5

/-- `I = op ++ a ++ imm` (30_encoding.md R43). -/
def packWord (op : Opcode) (a : Idx) (imm : Word) : InstrWord := op ++ a ++ imm

/-- The bundle of a 12-bit word whose three fields are well formed, with the follow-up token given. -/
def StepInput.ofWord (I : InstrWord) (fa : Tok 3) : StepInput where
  op := .bits (opField I)
  a := .bits (aField I)
  imm := .bits (immField I)
  fa := fa

/-- The 12-character instruction string cut into tokens by the slices `(0:4)`, `(4:7)`, `(7:12)`
(30_encoding.md R43), with the follow-up token beside it. -/
def TextInput.ofString (s fa : TokenText) : TextInput where
  op := s.take 4
  a := (s.drop 4).take 3
  imm := s.drop 7
  fa := fa

/-! ### Opcode map and field use -/

/-- `opclass` (40_control.md R59): the opcode map of 30_encoding.md R47 with its explicit fallback for an
unmapped pattern. -/
def opclass (o : Opcode) : OpClass :=
  match o with
  | 0b0000#4 => .halt
  | 0b0001#4 => .load
  | 0b0010#4 => .store
  | 0b0011#4 => .add
  | 0b0100#4 => .sub
  | 0b0101#4 => .mul
  | 0b0111#4 => .div
  | 0b1000#4 => .compareTwo
  | 0b1001#4 => .compareAll
  | 0b1010#4 => .clearOne
  | 0b1011#4 => .clearAll
  | _ => .invalid

/-- Column `a` of 30_encoding.md R53. -/
def OpClass.usesA : OpClass → Bool
  | .halt => false
  | .load => true
  | .store => true
  | .add => true
  | .sub => true
  | .mul => true
  | .div => true
  | .compareTwo => true
  | .compareAll => false
  | .clearOne => true
  | .clearAll => false
  | .invalid => false

/-- Column `imm` of 30_encoding.md R53. -/
def OpClass.usesImm : OpClass → Bool
  | .halt => false
  | .load => false
  | .store => true
  | .add => true
  | .sub => true
  | .mul => true
  | .div => true
  | .compareTwo => false
  | .compareAll => false
  | .clearOne => false
  | .clearAll => false
  | .invalid => false

/-- Column `fa` of 30_encoding.md R53. -/
def OpClass.usesFa : OpClass → Bool
  | .halt => false
  | .load => false
  | .store => false
  | .add => false
  | .sub => false
  | .mul => false
  | .div => false
  | .compareTwo => true
  | .compareAll => false
  | .clearOne => true
  | .clearAll => false
  | .invalid => false

/-! ### Decoding -/

/-- Reading one field: a field the opcode does not use is not looked at and counts as the zero
placeholder (30_encoding.md R50, R53); a malformed field that is read is rejected under its name. -/
def readField {n : Nat} (used : Bool) (f : TokenField) (t : Tok n) : Except TokenField (BitVec n) :=
  match used, t with
  | false, _ => .ok 0#n
  | true, .bits b => .ok b
  | true, .malformed => .error f

/-- The instruction of class `k` with the fields read. -/
def assemble (k : OpClass) (o : Opcode) (a : Idx) (imm : Word) (fa : Idx) : Instr :=
  match k with
  | .halt => .halt
  | .load => .load a
  | .store => .store a imm
  | .add => .add a imm
  | .sub => .sub a imm
  | .mul => .mul a imm
  | .div => .div a imm
  | .compareTwo => .compareTwo a fa
  | .compareAll => .compareAll
  | .clearOne => .clearOne a fa
  | .clearAll => .clearAll
  | .invalid => .invalid o

/-- The decode procedure of 40_control.md R58: the checks run in the order `op`, unknown opcode, `a`,
`imm`, `fa` (60_exceptions.md R85), and the first that fails names its token. An unknown opcode reads no
further field and decodes to `invalid`. -/
def decode (inp : StepInput) : Except TokenField Instr :=
  match inp.op with
  | .malformed => .error .opcode
  | .bits o =>
    match readField (opclass o).usesA .address inp.a with
    | .error f => .error f
    | .ok a =>
      match readField (opclass o).usesImm .operand inp.imm with
      | .error f => .error f
      | .ok imm =>
        match readField (opclass o).usesFa .followUp inp.fa with
        | .error f => .error f
        | .ok fa => .ok (assemble (opclass o) o a imm fa)

/-! ### Encoding -/

/-- The opcode of an instruction (30_encoding.md R47). -/
def opcodeOf : Instr → Opcode
  | .halt => 0b0000#4
  | .load _ => 0b0001#4
  | .store _ _ => 0b0010#4
  | .add _ _ => 0b0011#4
  | .sub _ _ => 0b0100#4
  | .mul _ _ => 0b0101#4
  | .div _ _ => 0b0111#4
  | .compareTwo _ _ => 0b1000#4
  | .compareAll => 0b1001#4
  | .clearOne _ _ => 0b1010#4
  | .clearAll => 0b1011#4
  | .invalid op => op

/-- The encoder (30_encoding.md R55): unused fields are written as zero (R50). -/
def encode (i : Instr) : Encoded :=
  match i with
  | .halt => ⟨packWord (opcodeOf i) 0#3 0#5, none⟩
  | .load a => ⟨packWord (opcodeOf i) a 0#5, none⟩
  | .store a imm => ⟨packWord (opcodeOf i) a imm, none⟩
  | .add a imm => ⟨packWord (opcodeOf i) a imm, none⟩
  | .sub a imm => ⟨packWord (opcodeOf i) a imm, none⟩
  | .mul a imm => ⟨packWord (opcodeOf i) a imm, none⟩
  | .div a imm => ⟨packWord (opcodeOf i) a imm, none⟩
  | .compareTwo a fa => ⟨packWord (opcodeOf i) a 0#5, some fa⟩
  | .compareAll => ⟨packWord (opcodeOf i) 0#3 0#5, none⟩
  | .clearOne a fa => ⟨packWord (opcodeOf i) a 0#5, some fa⟩
  | .clearAll => ⟨packWord (opcodeOf i) 0#3 0#5, none⟩
  | .invalid _ => ⟨packWord (opcodeOf i) 0#3 0#5, none⟩

/-- The follow-up field of an encoded instruction: no token where the opcode takes none. -/
def Tok.ofFollowUp : Option Idx → Tok 3
  | some fa => .bits fa
  | none => .malformed

/-- The bundle that presents an encoded instruction. -/
def StepInput.ofEncoded (e : Encoded) : StepInput := StepInput.ofWord e.word (Tok.ofFollowUp e.followUp)

/-- The text that presents an encoded instruction: the 12-character string and the follow-up token
(30_encoding.md R43, R55), empty where the opcode takes none. -/
def TextInput.ofEncoded (e : Encoded) : TextInput :=
  TextInput.ofString (spell e.word) (match e.followUp with | some fa => spell fa | none => [])

/-! ### The opcode table's numbering -/

/-- The bundle of a table word: bits 11..0 are the instruction `I`, and the follow-up token counts on from
it in bits 14..12 (DESIGN CHOICE, log entry 8). Bits at and above `nbits` are zero. -/
def StepInput.ofTableWord (nbits w : Nat) : StepInput :=
  StepInput.ofWord (BitVec.ofNat 12 (w % 2 ^ nbits)) (.bits (BitVec.ofNat 3 (w % 2 ^ nbits / 2 ^ 12)))

/-- The instruction the decoder reads from a table word. -/
def decodeTableWord (nbits w : Nat) : Option Instr :=
  match decode (StepInput.ofTableWord nbits w) with
  | .ok i => some i
  | .error _ => none

end Sys2Proof
end

