-- ==== Sys2Proof/Machine/State.lean ====
section
/-! DEFINITION. The machine's state (10_state.md R22), the output events of a step (R25), the step's
outcome (R26), error classes and status codes (60_exceptions.md R83, R84), faults and refusals, and the
state after reset (70_reset_and_hazards.md R94). -/

namespace Sys2Proof.Machine

/-- `RUN` (10_state.md R17). -/
inductive RunState where
  | running | halted
  deriving DecidableEq, Repr

/-- The error classes of 60_exceptions.md R83. -/
inductive ErrorKind where
  | malformedToken (f : TokenField)
  | unknownOpcode
  | arithmeticOverflow
  | arithmeticUnderflow
  | divisionByZero
  deriving DecidableEq, Repr

/-- The status of a step (60_exceptions.md R84). -/
inductive Status where
  | ok | malformedToken | unknownOpcode | overflow | underflow | divByZero
  deriving DecidableEq, Repr

/-- The relation that COMPARE_TWO reports (10_state.md R25). -/
inductive Rel where
  | gt | lt | eq
  deriving DecidableEq, Repr

/-- The output events of 10_state.md R25. -/
inductive Event where
  | renderMem (m : RegFile)
  | renderAcc (w : Word)
  | error (k : ErrorKind)
  | cmp (r : Rel)
  | maxMin (mx mn : Word)
  | cleared (a : Idx)
  | clearedAll
  deriving DecidableEq, Repr

/-- The outcome `Continue` or `Halt` of a step (10_state.md R26). -/
inductive StepOutcome where
  | continues | halts
  deriving DecidableEq, Repr

/-- Everything one step outputs (10_state.md R24, R25, R26): its events in order, its status, its outcome,
and whether the decoder asked for the follow-up address. The flags are functions of the status
(42_alu.md R69) and are not stored. -/
structure StepOut where
  events : List Event
  status : Status
  outcome : StepOutcome
  faReq : Bool
  deriving DecidableEq, Repr

/-- One act of the host at the block's inputs: the reset pulse (10_state.md R24, 70_reset_and_hazards.md
R96), or an instruction, as a bundle of fields (10_state.md R23) or as four text tokens that the front
end validates (30_encoding.md R38). -/
inductive Stimulus where
  | rst
  | bundle (inp : StepInput)
  | text (t : TextInput)
  deriving DecidableEq, Repr

/-- The state: the architectural record of 10_state.md R22 (`M`, `acc`, `run`), what the host will present,
the next act first (`input`, log entry 1), and the outputs of every step since reset, oldest first
(`outputs`, log entry 2). -/
structure State where
  M : RegFile
  acc : Word
  run : RunState
  input : List Stimulus
  outputs : List StepOut
  deriving DecidableEq, Repr

/-- Where no step exists. -/
inductive Fault where
  /-- Raised by `step` when the block is Halted and the host does not assert `rst`: the block has no step
  (40_control.md R57, decision D14). Safe: the spec gives no successor either. -/
  | halted
  /-- Raised by `step` when the block is Running and the host presents nothing: a step exists only when an
  instruction is presented (40_control.md R57, R63). Safe: the run stops without being final. -/
  | awaitingInstruction
  deriving DecidableEq, Repr

/-- Instructions without a meaning. -/
inductive Refusal where
  /-- Reserved for an arm of `exec` without a meaning; no arm answers it. Safe. -/
  | notModelled (mnemonic : String)
  deriving DecidableEq, Repr

/-- The state after reset (70_reset_and_hazards.md R94): the seeds, `ACC` zero, Running. Nothing is presented
and no step has been taken (log entries 1 and 2). -/
def State.reset : State where
  M := Config.resetM
  acc := Config.resetAcc
  run := .running
  input := []
  outputs := []

end Sys2Proof.Machine
end

