-- ==== Sys2Proof/Machine/Flags.lean ====
section
/-! DEFINITION. The flag detector and the status outputs (42_alu.md R69, 60_exceptions.md R84): all of them
functions of a step's outputs, none of them state (10_state.md R20). -/

namespace Sys2Proof.Machine

/-- The 3-bit status code (60_exceptions.md R84). -/
def Status.code : Status → BitVec 3
  | .ok => 0#3
  | .malformedToken => 1#3
  | .unknownOpcode => 2#3
  | .overflow => 3#3
  | .underflow => 4#3
  | .divByZero => 5#3

/-- `OVF` (42_alu.md R69). -/
def Status.ovf (st : Status) : Bool := st == .overflow

/-- `UNF` (42_alu.md R69). -/
def Status.unf (st : Status) : Bool := st == .underflow

/-- `DZ` (42_alu.md R69). -/
def Status.dz (st : Status) : Bool := st == .divByZero

/-- The status of a step that reports an error of this class (60_exceptions.md R84). -/
def ErrorKind.status : ErrorKind → Status
  | .malformedToken _ => .malformedToken
  | .unknownOpcode => .unknownOpcode
  | .arithmeticOverflow => .overflow
  | .arithmeticUnderflow => .underflow
  | .divisionByZero => .divByZero

/-- The error class of an `Error` event. -/
def Event.errorKind? : Event → Option ErrorKind
  | .renderMem _ => none
  | .renderAcc _ => none
  | .error k => some k
  | .cmp _ => none
  | .maxMin _ _ => none
  | .cleared _ => none
  | .clearedAll => none

/-- The errors that a step reports, in order. -/
def StepOut.errors (o : StepOut) : List ErrorKind := o.events.filterMap Event.errorKind?

/-- The output signals of 10_state.md R24 while `done` is 1. -/
structure OutSignals where
  faReq : Bool
  status : BitVec 3
  ovf : Bool
  unf : Bool
  dz : Bool
  ev : List Event
  deriving DecidableEq, Repr

/-- The output signals that one finished step drives. -/
def StepOut.signals (o : StepOut) : OutSignals where
  faReq := o.faReq
  status := o.status.code
  ovf := o.status.ovf
  unf := o.status.unf
  dz := o.status.dz
  ev := o.events

/-- The outputs of the latest step: none before the first step is `done` (log entry 12). -/
def State.signals? (s : State) : Option OutSignals := s.outputs.getLast?.map StepOut.signals

/-- The `halted` output: `RUN = Halted` (10_state.md R24). -/
def State.haltedOut (s : State) : Bool := s.run == .halted

end Sys2Proof.Machine
end

