-- ==== Sys2Proof/Machine/Ops.lean ====
section
/-! DEFINITION. The named operations over the register file, `ACC`, `RUN` and the outputs (00_scope.md R8). -/

namespace Sys2Proof.Machine

/-- `M[a]`, which is `MemRead(a, 1)` (00_scope.md R8); every index names a word (20_memory.md R29). -/
def State.readM (s : State) (a : Idx) : Word := s.M[a.toNat]'a.isLt

/-- `M[a] <- v`, which is `MemWrite(a, 1, v)` (00_scope.md R8). -/
def State.writeM (s : State) (a : Idx) (v : Word) : State := { s with M := s.M.set a.toNat v a.isLt }

/-- All eight words at zero (44_clear.md R81). -/
def State.clearM (s : State) : State := { s with M := Vector.replicate 8 0#5 }

/-- `ACC <- v` (00_scope.md R8). -/
def State.writeAcc (s : State) (v : Word) : State := { s with acc := v }

/-- `halt`: the state half of it, `RUN <- Halted` (00_scope.md R8). -/
def State.halt (s : State) : State := { s with run := .halted }

/-- The step has finished (`done`, 10_state.md R24): its outputs are appended to the log. -/
def State.finish (s : State) (o : StepOut) : State := { s with outputs := s.outputs ++ [o] }

/-- A step that ends with status `OK` and outcome `Continue`. -/
def okOut (events : List Event) (faReq : Bool) : StepOut where
  events := events
  status := .ok
  outcome := .continues
  faReq := faReq

/-- Whether `fa_req` was asserted in a step that ended with this error before execution: only when the
follow-up token itself was found malformed (40_control.md R58, 43_compare.md R77). -/
def errorFaReq (k : ErrorKind) : Bool := k == .malformedToken .followUp

/-- The outputs of a step that ends in `raise k`: one `Error` event and no render, outcome `Continue`
(40_control.md R58, 60_exceptions.md R86, R87). -/
def errorOut (k : ErrorKind) : StepOut where
  events := [.error k]
  status := k.status
  outcome := .continues
  faReq := errorFaReq k

/-- `raise k` (00_scope.md R8, 60_exceptions.md R82): the one shared operation for taking an error. There is no
vector, no saved state and no mode change (R90), and no return from it (R91): `M`, `ACC` and `RUN` stay and
the host presents the next instruction. -/
def State.raise (s : State) (k : ErrorKind) : State := s.finish (errorOut k)

/-- The reset state, with what the host presents after the reset pulse still to come
(70_reset_and_hazards.md R96; log entry 5). -/
def resetWith (rest : List Stimulus) : State := { State.reset with input := rest }

end Sys2Proof.Machine
end

