-- ==== Sys2Proof/Machine/Operands.lean ====
section
/-! DEFINITION. The operand forms: the word at a direct index and the immediate, both unsigned
(20_memory.md R29, 30_encoding.md R44, R45, R51, 00_scope.md R7). No other form exists. -/

namespace Sys2Proof.Machine

/-- The first ALU operand `x = uint(M[a])` (42_alu.md R67); also the value COMPARE_TWO takes at `a` and at the
follow-up index `fa` (43_compare.md R77). -/
def State.memOperand (s : State) (a : Idx) : Nat := (s.readM a).toNat

/-- The second ALU operand `y = uint(imm)` (42_alu.md R67): not scaled, shifted or sign-extended
(30_encoding.md R45). -/
def immOperand (imm : Word) : Nat := imm.toNat

/-- The decoded values of the eight words, in index order (43_compare.md R78). -/
def State.memValues (s : State) : List Nat := s.M.toList.map BitVec.toNat

end Sys2Proof.Machine
end

