-- ==== Sys2Proof/Machine/Alu.lean ====
section
/-! DEFINITION. The 5-bit ALU (42_alu.md R67), its write-back policy (R68), and ADD, SUB, MUL, DIV (R70 to R73). -/

namespace Sys2Proof.Machine

/-- The ALU's operation (42_alu.md R67). -/
inductive AluOp where
  | add | sub | mul | div
  deriving DecidableEq, Repr

/-- The ALU's write-back action (42_alu.md R67). -/
inductive AluAction where
  | write (w : Word)
  | noWrite
  deriving DecidableEq, Repr

/-- What the ALU returns (42_alu.md R67). -/
structure AluResult where
  status : Status
  action : AluAction
  deriving DecidableEq, Repr

/-- An intermediate result as `W` signed bits hold it (00_scope.md R5, R7). -/
def aluHold (W : Nat) (r : Int) : Int := (BitVec.ofInt W r).toInt

/-- Re-encoding a result that is not negative to 5 bits: the encoded word with status `OK`, or
`OVERFLOW` with the action given (42_alu.md R67). -/
def reencode (onOverflow : AluAction) (r : Int) : AluResult :=
  if (toFixedWidth r.toNat 5).2 then ⟨.overflow, onOverflow⟩ else ⟨.ok, .write (toFixedWidth r.toNat 5).1⟩

/-- SUB tests the sign before it encodes (42_alu.md R67, 30_encoding.md R41). -/
def reencodeDifference (r : Int) : AluResult :=
  if r < 0 then ⟨.underflow, .write 0b00000#5⟩ else reencode (.write 0b00000#5) r

/-- The ALU with intermediate results of `W` signed bits (42_alu.md R67). -/
def aluAt (W : Nat) (k : AluOp) (x y : Nat) : AluResult :=
  match k with
  | .add => reencode .noWrite (aluHold W ((x : Int) + (y : Int)))
  | .sub => reencodeDifference (aluHold W ((x : Int) - (y : Int)))
  | .mul => reencode .noWrite (aluHold W ((x : Int) * (y : Int)))
  | .div => if y = 0 then ⟨.divByZero, .noWrite⟩ else reencode .noWrite (aluHold W ((x / y : Nat) : Int))

/-- The block's ALU: `ALU_W` = 16 (00_scope.md R5). -/
def alu (k : AluOp) (x y : Nat) : AluResult := aluAt Config.aluW k x y

/-- The status on which the instruction reports an error (42_alu.md R70 to R73). -/
def AluOp.failure : AluOp → Status
  | .add => .overflow
  | .sub => .underflow
  | .mul => .overflow
  | .div => .divByZero

/-- The error class that it then reports (42_alu.md R70 to R73). -/
def AluOp.failureKind : AluOp → ErrorKind
  | .add => .arithmeticOverflow
  | .sub => .arithmeticUnderflow
  | .mul => .arithmeticOverflow
  | .div => .divisionByZero

/-- The `Error` event of an ALU step, if any (42_alu.md R70 to R73). -/
def aluErrorEvents (k : AluOp) (st : Status) : List Event := if st = k.failure then [.error k.failureKind] else []

/-- The write-back policy (42_alu.md R68). -/
def State.applyAction (s : State) (a : Idx) (act : AluAction) : State :=
  match act with
  | .write w => s.writeM a w
  | .noWrite => s

/-- The outputs of an ALU step: the error, if any, before `RenderMem` of the words after the write-back
(42_alu.md R76). -/
def aluOut (k : AluOp) (st : Status) (m : RegFile) : StepOut where
  events := aluErrorEvents k st ++ [.renderMem m]
  status := st
  outcome := .continues
  faReq := false

/-- The common shape of ADD, SUB, MUL and DIV (42_alu.md R70 to R73, R75). -/
def aluStep (k : AluOp) (a : Idx) (imm : Word) (s : State) : State :=
  let r := alu k (s.memOperand a) (immOperand imm)
  let t := s.applyAction a r.action
  t.finish (aluOut k r.status t.M)

/-- ADD (42_alu.md R70). -/
def execAdd (a : Idx) (imm : Word) (s : State) : Host.Outcome State Fault Refusal := .next (aluStep .add a imm s)

/-- SUB (42_alu.md R71). -/
def execSub (a : Idx) (imm : Word) (s : State) : Host.Outcome State Fault Refusal := .next (aluStep .sub a imm s)

/-- MUL (42_alu.md R72, decision D9). -/
def execMul (a : Idx) (imm : Word) (s : State) : Host.Outcome State Fault Refusal := .next (aluStep .mul a imm s)

/-- DIV (42_alu.md R73, decision D10). -/
def execDiv (a : Idx) (imm : Word) (s : State) : Host.Outcome State Fault Refusal := .next (aluStep .div a imm s)

end Sys2Proof.Machine
end

