-- ==== Sys2Proof/Machine/Clear.lean ====
section
/-! DEFINITION. CLEAR_ONE and CLEAR_ALL (44_clear.md R80, R81). -/

namespace Sys2Proof.Machine

/-- CLEAR_ONE (44_clear.md R80): the target is the follow-up index; the value of the primary address `_a`
is unused (decision D7). -/
def execClearOne (_a fa : Idx) (s : State) : Host.Outcome State Fault Refusal :=
  let t := s.writeM fa 0b00000#5
  .next (t.finish (okOut [.cleared fa, .renderMem t.M] true))

/-- CLEAR_ALL (44_clear.md R81): `ACC` is not cleared, and the seeds are not restored. -/
def execClearAll (s : State) : Host.Outcome State Fault Refusal :=
  let t := s.clearM
  .next (t.finish (okOut [.clearedAll, .renderMem t.M] false))

end Sys2Proof.Machine
end

