-- ==== Sys2Proof/Machine/Compare.lean ====
section
/-! DEFINITION. COMPARE_TWO and COMPARE_ALL (43_compare.md R77, R78, R79). Neither writes state. -/

namespace Sys2Proof.Machine

/-- The three exclusive branches of COMPARE_TWO (43_compare.md R77). -/
def relation (x z : Nat) : Rel := if x > z then .gt else if x < z then .lt else .eq

/-- COMPARE_TWO (43_compare.md R77): the values at the two indices, not the indices. -/
def execCompareTwo (a fa : Idx) (s : State) : Host.Outcome State Fault Refusal :=
  .next (s.finish (okOut [.cmp (relation (s.memOperand a) (s.memOperand fa))] true))

/-- The running maximum starts below every word (43_compare.md R79). -/
def maxSentinel : Int := -1

/-- The running minimum starts above every word (43_compare.md R79). -/
def minSentinel : Int := 32

/-- One turn of COMPARE_ALL's loop on the pair `(mx, mn)` (43_compare.md R78). -/
def scanWord (p : Int × Int) (v : Nat) : Int × Int :=
  (if (v : Int) > p.1 then (v : Int) else p.1, if (v : Int) < p.2 then (v : Int) else p.2)

/-- COMPARE_ALL's loop (43_compare.md R78). -/
def scan (vs : List Nat) : Int × Int := vs.foldl scanWord (maxSentinel, minSentinel)

/-- COMPARE_ALL (43_compare.md R78). -/
def execCompareAll (s : State) : Host.Outcome State Fault Refusal :=
  .next (s.finish (okOut [.maxMin (word (scan s.memValues).1) (word (scan s.memValues).2)] false))

end Sys2Proof.Machine
end

