-- ==== Sys2Proof/Machine/Control.lean ====
section
/-! DEFINITION. HALT and the unknown opcode (40_control.md R62, R60). -/

namespace Sys2Proof.Machine

/-- The outputs of a HALT step: the final snapshot, status `OK`, outcome `Halt` (40_control.md R62). -/
def haltOut (m : RegFile) : StepOut where
  events := [.renderMem m]
  status := .ok
  outcome := .halts
  faReq := false

/-- HALT (40_control.md R62): the only terminal transition. -/
def execHalt (s : State) : Host.Outcome State Fault Refusal := .next (s.halt.finish (haltOut s.M))

/-- An opcode outside the enumerated set (40_control.md R60): reported, nothing rendered, state unchanged. All
five patterns behave alike, so the opcode `_op` does not matter. -/
def execInvalid (_op : Opcode) (s : State) : Host.Outcome State Fault Refusal := .next (s.raise .unknownOpcode)

end Sys2Proof.Machine
end

