-- ==== Sys2Proof/Machine/Transfer.lean ====
section
/-! DEFINITION. LOAD and STORE (41_transfer.md R65, R66). -/

namespace Sys2Proof.Machine

/-- LOAD (41_transfer.md R65): the only writer of `ACC`; renders the accumulator and not the memory. -/
def execLoad (a : Idx) (s : State) : Host.Outcome State Fault Refusal :=
  let t := s.writeAcc (s.readM a)
  .next (t.finish (okOut [.renderAcc t.acc] false))

/-- STORE (41_transfer.md R66). -/
def execStore (a : Idx) (imm : Word) (s : State) : Host.Outcome State Fault Refusal :=
  let t := s.writeM a imm
  .next (t.finish (okOut [.renderMem t.M] false))

end Sys2Proof.Machine
end

