-- ==== Sys2Proof/Machine/Dispatch.lean ====
section
/-! DEFINITION. The dispatch of 40_control.md R58: one arm per operation class of R59. `exec` is the execute phase
alone; that a step exists only while Running is `step`'s check (40_control.md R57). -/

namespace Sys2Proof.Machine

def exec (i : Instr) (s : State) : Host.Outcome State Fault Refusal :=
  match i with
  | .halt => Sys2Proof.Machine.execHalt s
  | .load a => Sys2Proof.Machine.execLoad a s
  | .store a imm => Sys2Proof.Machine.execStore a imm s
  | .add a imm => Sys2Proof.Machine.execAdd a imm s
  | .sub a imm => Sys2Proof.Machine.execSub a imm s
  | .mul a imm => Sys2Proof.Machine.execMul a imm s
  | .div a imm => Sys2Proof.Machine.execDiv a imm s
  | .compareTwo a fa => Sys2Proof.Machine.execCompareTwo a fa s
  | .compareAll => Sys2Proof.Machine.execCompareAll s
  | .clearOne a fa => Sys2Proof.Machine.execClearOne a fa s
  | .clearAll => Sys2Proof.Machine.execClearAll s
  | .invalid op => Sys2Proof.Machine.execInvalid op s

end Sys2Proof.Machine
end

