-- ==== Sys2Proof/Machine/Fetch.lean ====
section
/-! DEFINITION. Taking the host's next act (40_control.md R57, 70_reset_and_hazards.md R96). The block has no
program counter: the instruction comes from the host (10_state.md R19). -/

namespace Sys2Proof.Machine

/-- What the block finds at its inputs. -/
inductive Fetched where
  /-- An instruction is accepted, and `s` is the state without it among what is still to come. -/
  | instr (inp : StepInput) (s : State)
  /-- `rst` is asserted. -/
  | reset (s : State)
  /-- No step exists. -/
  | stop (f : Fault)
  deriving DecidableEq, Repr

/-- The bundle that a presented instruction delivers to the decoder: text goes through the front end
(30_encoding.md R38); `rst` presents none. -/
def Stimulus.bundle? : Stimulus → Option StepInput
  | .rst => none
  | .bundle inp => some inp
  | .text t => some (StepInput.ofText t)

/-- Why no step exists when the host presents nothing (40_control.md R57, R63). -/
def idleFault : RunState → Fault
  | .running => .awaitingInstruction
  | .halted => .halted

/-- An instruction is accepted only while Running (40_control.md R57). -/
def acceptInstr (s : State) (inp : StepInput) (rest : List Stimulus) : Fetched :=
  match s.run with
  | .running => .instr inp { s with input := rest }
  | .halted => .stop .halted

/-- The next act of the host: `rst` is taken in either run state (70_reset_and_hazards.md R96). -/
def fetch (s : State) : Fetched :=
  match s.input with
  | [] => .stop (idleFault s.run)
  | act :: rest =>
    match act.bundle? with
    | none => .reset (resetWith rest)
    | some inp => acceptInstr s inp rest

/-- The host presents one more instruction before all others. -/
def State.present (s : State) (inp : StepInput) : State := { s with input := .bundle inp :: s.input }

end Sys2Proof.Machine
end

