-- ==== Sys2Proof/Machine/Step.lean ====
section
/-! DEFINITION. The step (40_control.md R57, R58), and where a test places an instruction. -/

namespace Sys2Proof.Machine

/-- One step: the host's next act is taken; an instruction is decoded, a malformed field that the decoder
reads ends the step with its error (30_encoding.md R39), and any other instruction executes. -/
def step (s : State) : Host.Outcome State Fault Refusal :=
  match fetch s with
  | .stop f => .fault f
  | .reset t => .next t
  | .instr inp t =>
    match decode inp with
    | .error f => .next (t.raise (.malformedToken f))
    | .ok i => exec i t

/-- `s` with the instruction of a table word presented next (log entry 9): the host's act, which is how every
instruction reaches the block (10_state.md R19). -/
def State.withFetchWord (s : State) (nbits w : Nat) : State := s.present (StepInput.ofTableWord nbits w)

end Sys2Proof.Machine
end

