-- ==== Sys2Proof/Safety.lean ====
section
/-! DEFINITION. The terms that claims about runs use: what is presented, what a frame keeps, and the
invariants of the step. -/

namespace Sys2Proof.Machine

/-- The host's next act presents the instruction bundle `inp`, and `rest` is what it will do after it. -/
def Presents (s : State) (inp : StepInput) (rest : List Stimulus) : Prop :=
  ∃ act, s.input = act :: rest ∧ act.bundle? = some inp

/-- Every word of the register file reads as before. -/
def KeepsMemory (s t : State) : Prop := ∀ b : Idx, t.readM b = s.readM b

/-- Every word of the register file but `M[a]` reads as before. -/
def KeepsOtherWords (s t : State) (a : Idx) : Prop := ∀ b : Idx, b ≠ a → t.readM b = s.readM b

/-- From `s` to `t` one step has finished with outputs `o`, and `ACC`, `RUN` and the host's later acts are as
before. -/
def Reports (s t : State) (o : StepOut) : Prop :=
  t.acc = s.acc ∧ t.run = s.run ∧ t.input = s.input ∧ t.outputs = s.outputs ++ [o]

/-- The flag detector's outputs for the latest step (42_alu.md R69). -/
def FlagsAre (t : State) (ovf unf dz : Bool) : Prop :=
  ∃ g, t.signals? = some g ∧ g.ovf = ovf ∧ g.unf = unf ∧ g.dz = dz

/-- With this opcode the decoder reads no further field (30_encoding.md R53): every word with it, and every
bundle with it, whatever its other fields hold, decodes to `i`. -/
def ReadsNoField (op : Opcode) (i : Instr) : Prop :=
  (∀ (a : Idx) (imm : Word) (fa : Tok 3), decode (StepInput.ofWord (op ++ a ++ imm) fa) = .ok i) ∧
    ∀ (a : Tok 3) (imm : Tok 5) (fa : Tok 3), decode ⟨.bits op, a, imm, fa⟩ = .ok i

/-- With this opcode the decoder reads `a` and nothing else (30_encoding.md R53). -/
def ReadsAddress (op : Opcode) (mk : Idx → Instr) : Prop :=
  (∀ (a : Idx) (imm : Word) (fa : Tok 3), decode (StepInput.ofWord (op ++ a ++ imm) fa) = .ok (mk a)) ∧
    (∀ (a : Idx) (imm : Tok 5) (fa : Tok 3), decode ⟨.bits op, .bits a, imm, fa⟩ = .ok (mk a)) ∧
    ∀ (imm : Tok 5) (fa : Tok 3), decode ⟨.bits op, .malformed, imm, fa⟩ = .error .address

/-- With this opcode the decoder reads `a`, then `imm`, and not `fa` (30_encoding.md R53). -/
def ReadsAddressAndOperand (op : Opcode) (mk : Idx → Word → Instr) : Prop :=
  (∀ (a : Idx) (imm : Word) (fa : Tok 3), decode (StepInput.ofWord (op ++ a ++ imm) fa) = .ok (mk a imm)) ∧
    (∀ (imm : Tok 5) (fa : Tok 3), decode ⟨.bits op, .malformed, imm, fa⟩ = .error .address) ∧
    ∀ (a : Idx) (fa : Tok 3), decode ⟨.bits op, .bits a, .malformed, fa⟩ = .error .operand

/-- With this opcode the decoder reads `a`, then the follow-up token, and not `imm` (30_encoding.md R51, R53). -/
def ReadsAddressAndFollowUp (op : Opcode) (mk : Idx → Idx → Instr) : Prop :=
  (∀ (a : Idx) (imm : Word) (fa : Idx), decode (StepInput.ofWord (op ++ a ++ imm) (.bits fa)) = .ok (mk a fa)) ∧
    (∀ (a : Idx) (imm : Tok 5) (fa : Idx), decode ⟨.bits op, .bits a, imm, .bits fa⟩ = .ok (mk a fa)) ∧
    (∀ (imm : Tok 5) (fa : Tok 3), decode ⟨.bits op, .malformed, imm, fa⟩ = .error .address) ∧
    ∀ (a : Idx) (imm : Tok 5), decode ⟨.bits op, .bits a, imm, .malformed⟩ = .error .followUp

/-- Whether the instruction is one of those that 10_state.md R14 lets write `M[b]`. -/
def mayWriteWord (i : Instr) (b : Idx) : Bool :=
  match i with
  | .halt => false
  | .load _ => false
  | .store a _ => b == a
  | .add a _ => b == a
  | .sub a _ => b == a
  | .mul a _ => b == a
  | .div a _ => b == a
  | .compareTwo _ _ => false
  | .compareAll => false
  | .clearOne _ fa => b == fa
  | .clearAll => true
  | .invalid _ => false

/-- Two bundles agree on every field that the decoder reads for the opcode (30_encoding.md R53). -/
def AgreeOnReadFields (i j : StepInput) : Prop :=
  i.op = j.op ∧
    ∀ o, i.op = .bits o →
      ((opclass o).usesA = true → i.a = j.a) ∧ ((opclass o).usesImm = true → i.imm = j.imm) ∧
        ((opclass o).usesFa = true → i.fa = j.fa)

/-- A step's report is consistent (60_exceptions.md R84, R85, R86): status `OK` and no error, or exactly one
error, reported first, with its own status, and the outcome `Continue`. -/
def ReportConsistent (o : StepOut) : Prop :=
  (o.status = .ok ∧ o.errors = []) ∨
    ∃ k, o.errors = [k] ∧ o.events.head? = some (.error k) ∧ o.status = k.status ∧ o.outcome = .continues

/-- Every report since reset is consistent. -/
def LogConsistent (s : State) : Prop := ∀ o ∈ s.outputs, ReportConsistent o

/-- A halted block has reported the final memory snapshot as its last event, in a step with status `OK` and
outcome `Halt` (40_control.md R62, 70_reset_and_hazards.md R103). -/
def HaltReported (s : State) : Prop :=
  s.run = .halted →
    ∃ o, s.outputs.getLast? = some o ∧ o.events = [.renderMem s.M] ∧ o.status = .ok ∧ o.outcome = .halts

/-- No step but the last has the outcome `Halt`, and the block is Halted exactly when the last step has it
(10_state.md R17, R26). -/
def RunMatchesLog (s : State) : Prop :=
  (∀ o ∈ s.outputs.dropLast, o.outcome = .continues) ∧
    (s.run = .halted ↔ ∃ o, s.outputs.getLast? = some o ∧ o.outcome = .halts)

/-- The register file and accumulator that a host has seen after one more event. -/
def seeEvent (v : RegFile × Word) (e : Event) : RegFile × Word :=
  match e with
  | .renderMem m => (m, v.2)
  | .renderAcc w => (v.1, w)
  | .error _ => v
  | .cmp _ => v
  | .maxMin _ _ => v
  | .cleared _ => v
  | .clearedAll => v

/-- What a host that knows the reset values has seen after these steps. -/
def seen (outs : List StepOut) : RegFile × Word :=
  (outs.flatMap StepOut.events).foldl seeEvent (Config.resetM, Config.resetAcc)

/-- The events since reset show the whole of `M` and `ACC`: every write is rendered (10_state.md R16, R25). -/
def LogShowsState (s : State) : Prop := seen s.outputs = (s.M, s.acc)

/-- What is observed of a program: the final state and the event list of every step (40_control.md R63). -/
def observation (s : State) : (RegFile × Word × RunState) × List (List Event) :=
  ((s.M, s.acc, s.run), s.outputs.map StepOut.events)

/-- A run is final exactly when the block is Halted (40_control.md R63). -/
def Final (s : State) : Prop := s.run = .halted

end Sys2Proof.Machine
end

