-- ==== Sys2Proof/Certificates/Slice0/Obligations.lean ====
section
/-! DEFINITION. The statements for the provers, in the order of OBLIGATIONS.json. -/

open Sys2Proof Sys2Proof.Machine

/-! ### Encoding -/

/-- Words written out bit by bit from the spec's formats decode to the instructions they stand for, one of
every family (30_encoding.md R43, R47, R55; the words of 95_test_vectors.md). -/
def Obligations.WordsOfEveryFamilyDecode : Prop :=
  decode (StepInput.ofWord 0b0000_000_00000#12 .malformed) = .ok .halt ∧
    decode (StepInput.ofWord 0b0001_001_00000#12 .malformed) = .ok (.load 1) ∧
    decode (StepInput.ofWord 0b0010_010_11111#12 .malformed) = .ok (.store 2 31) ∧
    decode (StepInput.ofWord 0b0100_001_10001#12 .malformed) = .ok (.sub 1 17) ∧
    decode (StepInput.ofWord 0b1000_111_00000#12 (.bits 6)) = .ok (.compareTwo 7 6) ∧
    decode (StepInput.ofWord 0b1010_101_00000#12 (.bits 2)) = .ok (.clearOne 5 2) ∧
    decode (StepInput.ofWord 0b1011_000_00000#12 .malformed) = .ok .clearAll ∧
    decode (StepInput.ofWord 0b0110_000_00000#12 .malformed) = .ok (.invalid 6)

/-- The opcode map of 40_control.md R59, all sixteen patterns. -/
def Obligations.OpcodeMapHasElevenOperations : Prop :=
  ((List.range 16).map fun n => opclass (BitVec.ofNat 4 n)) =
    [.halt, .load, .store, .add, .sub, .mul, .invalid, .div, .compareTwo, .compareAll, .clearOne, .clearAll,
      .invalid, .invalid, .invalid, .invalid]

/-- Decoding an encoded well-formed instruction gives it back, for every operand value (30_encoding.md R43, R53,
R55). -/
def Obligations.DecodeOfEncodeIsTheInstruction : Prop :=
  ∀ i : Instr, i.wellFormed = true → decode (StepInput.ofEncoded (encode i)) = .ok i

/-- The same through text: the 12-character string and the follow-up token of an encoded instruction pass the
front end and decode to it (30_encoding.md R38, R40, R43, R51). -/
def Obligations.TextOfEncodeDecodesToTheInstruction : Prop :=
  ∀ i : Instr, i.wellFormed = true → decode (StepInput.ofText (TextInput.ofEncoded (encode i))) = .ok i

/-- Every 12-bit word decodes, with its own opcode, to a well-formed instruction whose encoding is that word
with the unread fields at zero, and every bundle has one of the two results (30_encoding.md R50, R54). -/
def Obligations.EveryWordDecodesAndEncodesBack : Prop :=
  (∀ (I : InstrWord) (fa : Idx), ∃ i,
      decode (StepInput.ofWord I (.bits fa)) = .ok i ∧ i.wellFormed = true ∧ i.opClass = opclass (opField I) ∧
        encode i =
          ⟨packWord (opField I) (if i.opClass.usesA then aField I else 0#3)
              (if i.opClass.usesImm then immField I else 0#5),
            if i.opClass.usesFa then some fa else none⟩) ∧
    ∀ inp : StepInput, (∃ f, decode inp = .error f) ∨ ∃ i, decode inp = .ok i ∧ i.wellFormed = true

/-- The instruction string's slices are the fields of the word it spells: character `k` is bit `11 - k`
(30_encoding.md R43). -/
def Obligations.InstructionStringCarriesTheFields : Prop :=
  (∀ (I : InstrWord) (fa : TokenText),
      StepInput.ofText (TextInput.ofString (spell I) fa) = StepInput.ofWord I (Tok.ofText 3 fa)) ∧
    ∀ (op : Opcode) (a : Idx) (imm : Word),
      opField (op ++ a ++ imm) = op ∧ aField (op ++ a ++ imm) = a ∧ immField (op ++ a ++ imm) = imm ∧
        (op ++ a ++ imm).toNat = op.toNat * 256 + a.toNat * 32 + imm.toNat ∧
        (0b0011#4 ++ 0b000#3 ++ 0b00011#5 : InstrWord) = 0x303#12

/-- A field that the decoder does not read has no effect, whatever it holds, on the whole step
(30_encoding.md R50, R53). -/
def Obligations.UnreadFieldsHaveNoEffect : Prop :=
  ∀ (s : State) (inp inp' : StepInput) (rest : List Stimulus),
    AgreeOnReadFields inp inp' →
      decode inp = decode inp' ∧
        step { s with input := .bundle inp :: rest } = step { s with input := .bundle inp' :: rest }

/-- The decoder's checks run in the order opcode, unknown opcode, address, operand, follow-up, and the first
that fails decides (40_control.md R58, 60_exceptions.md R85). -/
def Obligations.FirstFailingCheckDecides : Prop :=
  ∀ (op : Tok 4) (a : Tok 3) (imm : Tok 5) (fa : Tok 3),
    (op = .malformed → decode ⟨op, a, imm, fa⟩ = .error .opcode) ∧
      ∀ o, op = .bits o →
        (opclass o = .invalid → decode ⟨op, a, imm, fa⟩ = .ok (.invalid o)) ∧
          ((opclass o).usesA = true → a = .malformed → decode ⟨op, a, imm, fa⟩ = .error .address) ∧
          ((opclass o).usesImm = true → a ≠ .malformed → imm = .malformed →
            decode ⟨op, a, imm, fa⟩ = .error .operand) ∧
          ((opclass o).usesFa = true → a ≠ .malformed → fa = .malformed →
            decode ⟨op, a, imm, fa⟩ = .error .followUp) ∧
          (((opclass o).usesA = true → a ≠ .malformed) → ((opclass o).usesImm = true → imm ≠ .malformed) →
            ((opclass o).usesFa = true → fa ≠ .malformed) →
              ∃ i, decode ⟨op, a, imm, fa⟩ = .ok i ∧ i.opClass = opclass o ∧ i.wellFormed = true)

/-! ### Token validation and codec -/

/-- `validate_binary` and the token it delivers (30_encoding.md R38). -/
def Obligations.FrontEndValidatesExactlyBinaryTokens : Prop :=
  ∀ (t : TokenText) (n : Nat),
    (validateBinary t n = true ↔ t.length = n ∧ ∀ k (h : k < t.length), t[k] = '0' ∨ t[k] = '1') ∧
      (validateBinary t n = true → ∃ b, Tok.ofText n t = .bits b ∧ b.toNat = toInt t) ∧
      (validateBinary t n = false → Tok.ofText n t = .malformed)

/-- `to_int` is the sum of the powers of two at the positions that hold '1', leftmost most significant, with
the worked values (30_encoding.md R40). -/
def Obligations.ToIntIsBaseTwo : Prop :=
  (∀ s : TokenText,
      toInt s = ((List.range s.length).map fun k => if s[k]? = some '1' then 2 ^ (s.length - 1 - k) else 0).sum) ∧
    (∀ (s : TokenText) (n : Nat), validateBinary s n = true →
      ∃ b, Tok.ofText n s = .bits b ∧ toInt s = b.toNat) ∧
    toInt ['0', '0', '0', '1', '1'] = 3 ∧ toInt ['0', '0', '1', '0', '0'] = 4 ∧
    toInt ['0', '0', '0', '1', '0'] = 2 ∧ toInt ['1', '0', '0', '0', '1'] = 17

/-- `to_fixed_width` never truncates: it gives the value exactly or the all-zero sentinel with the overflow
mark (30_encoding.md R41). -/
def Obligations.ToFixedWidthNeverTruncates : Prop :=
  ∀ v w : Nat,
    (2 ^ w ≤ v → toFixedWidth v w = (0#w, true) ∧ toFixedWidthText v w = (List.replicate w '0', true)) ∧
      (v < 2 ^ w → (toFixedWidth v w).2 = false ∧ (toFixedWidth v w).1.toNat = v ∧
        (toFixedWidthText v w).2 = false ∧ (toFixedWidthText v w).1.length = w) ∧
      toFixedWidth 0 w = (0#w, false)

/-- The codec's round trips, both ways (30_encoding.md R42). -/
def Obligations.CodecRoundTrips : Prop :=
  (∀ v w : Nat, v < 2 ^ w → toInt (toFixedWidthText v w).1 = v) ∧
    ∀ s : TokenText, validateBinary s s.length = true → toFixedWidthText (toInt s) s.length = (s, false)

/-! ### The step -/

/-- A step runs the decoded instruction on the state without the host's act (40_control.md R58). -/
def Obligations.StepRunsTheDecodedInstruction : Prop :=
  ∀ (s : State) (inp : StepInput) (rest : List Stimulus) (i : Instr),
    s.run = .running → Presents s inp rest → decode inp = .ok i → step s = exec i { s with input := rest }

/-- Text tokens reach the decoder through the front end: a step on text is the step on the bundle the front
end delivers (30_encoding.md R38; that the host may present either is the model's, log entry 1). -/
def Obligations.TextRunsAsItsValidatedBundle : Prop :=
  ∀ (s : State) (t : TextInput) (rest : List Stimulus),
    step { s with input := .text t :: rest } = step { s with input := .bundle (StepInput.ofText t) :: rest }

/-- A malformed field that the decoder reads abandons the instruction: one `Error` event and nothing else, the
state unchanged, and the block goes on (30_encoding.md R39). -/
def Obligations.MalformedTokenAbandonsTheInstruction : Prop :=
  ∀ (s : State) (inp : StepInput) (rest : List Stimulus) (f : TokenField),
    s.run = .running → Presents s inp rest → decode inp = .error f →
      ∃ t o, step s = .next t ∧ KeepsMemory s t ∧ t.acc = s.acc ∧ t.run = .running ∧ t.input = rest ∧
        t.outputs = s.outputs ++ [o] ∧ o.events = [.error (.malformedToken f)] ∧ o.outcome = .continues ∧
        o.status.code = 1#3 ∧ FlagsAre t false false false

/-- Every presented instruction, well formed or not, completes in a Running block, with one report
(40_control.md R64): nothing traps or hangs. -/
def Obligations.EveryPresentedInstructionCompletes : Prop :=
  ∀ (s : State) (inp : StepInput) (rest : List Stimulus),
    s.run = .running → Presents s inp rest →
      ∃ t o, step s = .next t ∧ t.input = rest ∧ t.outputs = s.outputs ++ [o] ∧
        (t.run = .halted ↔ o.outcome = .halts)

/-- An instruction is accepted only while Running: a step exists only on `rst` or when the host presents an
instruction to a Running block (40_control.md R57). -/
def Obligations.NoStepWhileHaltedOrIdle : Prop :=
  (∀ (s : State) (inp : StepInput) (rest : List Stimulus) (t : State),
      s.run = .halted → Presents s inp rest → step s ≠ .next t) ∧
    ∀ s t : State, step s = .next t →
      (∃ rest, s.input = .rst :: rest) ∨ (s.run = .running ∧ ∃ inp rest, Presents s inp rest)

/-- The names of the two stops, which are the model's choice (log entry 4). -/
def Obligations.StopsAreNamed : Prop :=
  ∀ s : State,
    (step s = .fault .halted ↔ s.run = .halted ∧ ∀ rest, s.input ≠ .rst :: rest) ∧
      (step s = .fault .awaitingInstruction ↔ s.run = .running ∧ s.input = []) ∧ ∀ r, step s ≠ .refused r

/-- `rst` loads the reset state in either run state (70_reset_and_hazards.md R96). -/
def Obligations.RstLoadsTheResetState : Prop :=
  ∀ (s : State) (rest : List Stimulus), s.input = .rst :: rest →
    ∃ t, step s = .next t ∧ t.readM 0 = 0b00001#5 ∧ t.readM 1 = 0b00010#5 ∧
      (∀ b : Idx, 2 ≤ b.toNat → t.readM b = 0#5) ∧ t.acc = 0#5 ∧ t.run = .running

/-- What `rst` leaves in the model's own fields (log entries 2 and 5): the later acts stay, and the log of
the new run is empty. -/
def Obligations.RstStartsANewLog : Prop :=
  ∀ (s : State) (rest : List Stimulus), s.input = .rst :: rest →
    ∃ t, step s = .next t ∧ t.input = rest ∧ t.outputs = []

/-- The reset values (70_reset_and_hazards.md R94). -/
def Obligations.ResetValues : Prop :=
  State.reset.readM 0 = 0b00001#5 ∧ State.reset.readM 1 = 0b00010#5 ∧
    (∀ b : Idx, 2 ≤ b.toNat → State.reset.readM b = 0b00000#5) ∧ State.reset.acc = 0b00000#5 ∧
    State.reset.run = .running

/-- Only HALT takes the block to Halted, and only reset takes it back (10_state.md R17). -/
def Obligations.OnlyHaltAndResetWriteRun : Prop :=
  (∀ s t : State, s.run = .running → step s = .next t → t.run = .halted →
      ∃ inp rest, Presents s inp rest ∧ decode inp = .ok .halt) ∧
    (∀ s t : State, s.run = .halted → step s = .next t → (∃ rest, s.input = .rst :: rest) ∧ t.run = .running) ∧
    (∀ (s t : State) (i : Instr), exec i s = .next t → (t.run = s.run ∨ (i = .halt ∧ t.run = .halted))) ∧
    State.reset.run = .running

/-- Only LOAD and reset write `ACC` (10_state.md R16). -/
def Obligations.OnlyLoadAndResetWriteAcc : Prop :=
  ∀ s t : State, step s = .next t → t.acc ≠ s.acc →
    (∃ rest, s.input = .rst :: rest) ∨ ∃ inp rest a, Presents s inp rest ∧ decode inp = .ok (.load a)

/-- The decoder asks for the follow-up address exactly for COMPARE_TWO and CLEAR_ONE, once the primary
address has passed validation (10_state.md R23, 40_control.md R58). -/
def Obligations.FollowUpIsRequestedOnlyAfterTheAddress : Prop :=
  ∀ (s t : State) (inp : StepInput) (rest : List Stimulus),
    s.run = .running → Presents s inp rest → step s = .next t →
      ∃ o, t.outputs = s.outputs ++ [o] ∧
        (o.faReq = true ↔
          ∃ op a, inp.op = .bits op ∧ (opclass op = .compareTwo ∨ opclass op = .clearOne) ∧ inp.a = .bits a)

/-! ### Instructions -/

/-- HALT (40_control.md R62): encoding, the final snapshot, Halted, outcome `Halt`; nothing else changes. -/
def Obligations.HaltRendersMemoryAndHalts : Prop :=
  ReadsNoField 0b0000#4 .halt ∧
    ∀ s : State, ∃ t, exec .halt s = .next t ∧ t.run = .halted ∧ KeepsMemory s t ∧ t.acc = s.acc ∧
      t.input = s.input ∧
      t.outputs = s.outputs ++ [⟨[.renderMem t.M], .ok, .halts, false⟩] ∧ FlagsAre t false false false

/-- LOAD (41_transfer.md R65): encoding, errors, `ACC <- M[a]`, `RenderAcc`; no word of `M` changes. -/
def Obligations.LoadWritesAccAndRendersIt : Prop :=
  ReadsAddress 0b0001#4 .load ∧
    ∀ (s : State) (a : Idx), ∃ t, exec (.load a) s = .next t ∧ t.acc = s.readM a ∧ KeepsMemory s t ∧
      t.run = s.run ∧ t.input = s.input ∧
      t.outputs = s.outputs ++ [⟨[.renderAcc (s.readM a)], .ok, .continues, false⟩] ∧
      FlagsAre t false false false

/-- STORE (41_transfer.md R66): encoding, errors, `M[a] <- imm` for every word, `RenderMem`; nothing else
changes. -/
def Obligations.StoreWritesTheImmediate : Prop :=
  ReadsAddressAndOperand 0b0010#4 .store ∧
    ∀ (s : State) (a : Idx) (imm : Word), ∃ t, exec (.store a imm) s = .next t ∧ t.readM a = imm ∧
      KeepsOtherWords s t a ∧ Reports s t ⟨[.renderMem t.M], .ok, .continues, false⟩ ∧ FlagsAre t false false false

/-- ADD (42_alu.md R70): encoding, errors, the exact sum when it fits, else the prior word with
`ArithmeticOverflow` and `OVF`; rendered either way; nothing else changes. -/
def Obligations.AddStoresTheSumOrReportsOverflow : Prop :=
  ReadsAddressAndOperand 0b0011#4 .add ∧
    ∀ (s : State) (a : Idx) (imm : Word), ∃ t, exec (.add a imm) s = .next t ∧ KeepsOtherWords s t a ∧
      ((s.readM a).toNat + imm.toNat ≤ 31 →
        (t.readM a).toNat = (s.readM a).toNat + imm.toNat ∧
          Reports s t ⟨[.renderMem t.M], .ok, .continues, false⟩ ∧ FlagsAre t false false false) ∧
      (32 ≤ (s.readM a).toNat + imm.toNat →
        t.readM a = s.readM a ∧
          Reports s t ⟨[.error .arithmeticOverflow, .renderMem t.M], .overflow, .continues, false⟩ ∧
          FlagsAre t true false false)

/-- SUB (42_alu.md R71): encoding, errors, the exact difference when it is not negative, else zero with
`ArithmeticUnderflow` and `UNF`; rendered either way; nothing else changes; never `OVF`. -/
def Obligations.SubStoresTheDifferenceOrClampsToZero : Prop :=
  ReadsAddressAndOperand 0b0100#4 .sub ∧
    ∀ (s : State) (a : Idx) (imm : Word), ∃ t, exec (.sub a imm) s = .next t ∧ KeepsOtherWords s t a ∧
      (imm.toNat ≤ (s.readM a).toNat →
        (t.readM a).toNat = (s.readM a).toNat - imm.toNat ∧
          Reports s t ⟨[.renderMem t.M], .ok, .continues, false⟩ ∧ FlagsAre t false false false) ∧
      ((s.readM a).toNat < imm.toNat →
        t.readM a = 0b00000#5 ∧
          Reports s t ⟨[.error .arithmeticUnderflow, .renderMem t.M], .underflow, .continues, false⟩ ∧
          FlagsAre t false true false)

/-- MUL (42_alu.md R72): encoding, errors, the exact product when it fits, else the prior word with
`ArithmeticOverflow` and `OVF`; rendered either way; nothing else changes. -/
def Obligations.MulStoresTheProductOrReportsOverflow : Prop :=
  ReadsAddressAndOperand 0b0101#4 .mul ∧
    ∀ (s : State) (a : Idx) (imm : Word), ∃ t, exec (.mul a imm) s = .next t ∧ KeepsOtherWords s t a ∧
      ((s.readM a).toNat * imm.toNat ≤ 31 →
        (t.readM a).toNat = (s.readM a).toNat * imm.toNat ∧
          Reports s t ⟨[.renderMem t.M], .ok, .continues, false⟩ ∧ FlagsAre t false false false) ∧
      (32 ≤ (s.readM a).toNat * imm.toNat →
        t.readM a = s.readM a ∧
          Reports s t ⟨[.error .arithmeticOverflow, .renderMem t.M], .overflow, .continues, false⟩ ∧
          FlagsAre t true false false)

/-- DIV (42_alu.md R73): encoding, errors, the truncated quotient for a non-zero divisor, else the prior word
with `DivisionByZero` and `DZ`; rendered in both cases; nothing else changes; never `OVF`. -/
def Obligations.DivStoresTheQuotientOrReportsZeroDivisor : Prop :=
  ReadsAddressAndOperand 0b0111#4 .div ∧
    ∀ (s : State) (a : Idx) (imm : Word), ∃ t, exec (.div a imm) s = .next t ∧ KeepsOtherWords s t a ∧
      (imm ≠ 0b00000#5 →
        (t.readM a).toNat = (s.readM a).toNat / imm.toNat ∧
          Reports s t ⟨[.renderMem t.M], .ok, .continues, false⟩ ∧ FlagsAre t false false false) ∧
      (imm = 0b00000#5 →
        t.readM a = s.readM a ∧
          Reports s t ⟨[.error .divisionByZero, .renderMem t.M], .divByZero, .continues, false⟩ ∧
          FlagsAre t false false true)

/-- COMPARE_TWO (43_compare.md R77): encoding, errors, the relation of the unsigned values at the two
indices; no state changes and nothing is rendered. -/
def Obligations.CompareTwoReportsTheRelation : Prop :=
  ReadsAddressAndFollowUp 0b1000#4 .compareTwo ∧
    ∀ (s : State) (a fa : Idx), ∃ t r, exec (.compareTwo a fa) s = .next t ∧ KeepsMemory s t ∧
      Reports s t ⟨[.cmp r], .ok, .continues, true⟩ ∧ FlagsAre t false false false ∧
      (r = .gt ↔ (s.readM fa).toNat < (s.readM a).toNat) ∧ (r = .lt ↔ (s.readM a).toNat < (s.readM fa).toNat) ∧
      (r = .eq ↔ s.readM a = s.readM fa)

/-- COMPARE_ALL (43_compare.md R78): encoding, the greatest and the least of the eight words; no state
changes and nothing is rendered. -/
def Obligations.CompareAllReportsMaximumAndMinimum : Prop :=
  ReadsNoField 0b1001#4 .compareAll ∧
    ∀ s : State, ∃ t mx mn, exec .compareAll s = .next t ∧ KeepsMemory s t ∧
      Reports s t ⟨[.maxMin mx mn], .ok, .continues, false⟩ ∧ FlagsAre t false false false ∧
      (∃ b, s.readM b = mx) ∧ (∃ b, s.readM b = mn) ∧
      ∀ b : Idx, mn.toNat ≤ (s.readM b).toNat ∧ (s.readM b).toNat ≤ mx.toNat

/-- Any sentinels below 0 and above 31 give COMPARE_ALL's result, and an all-zero register file reports minimum
0 (43_compare.md R79). -/
def Obligations.SentinelsDoNotMatter : Prop :=
  (∀ (s : State) (mx0 mn0 : Int), mx0 < 0 → 31 < mn0 →
      s.memValues.foldl scanWord (mx0, mn0) = s.memValues.foldl scanWord (-1, 32) ∧
        scan s.memValues = s.memValues.foldl scanWord (-1, 32)) ∧
    ∀ s : State, (∀ b, s.readM b = 0#5) →
      ∃ t o, exec .compareAll s = .next t ∧ t.outputs = s.outputs ++ [o] ∧ o.events = [.maxMin 0#5 0#5]

/-- CLEAR_ONE (44_clear.md R80): encoding, errors, `M[fa] <- 0` whatever the primary address holds,
confirmation and `RenderMem`; nothing else changes. -/
def Obligations.ClearOneClearsTheFollowUpWord : Prop :=
  ReadsAddressAndFollowUp 0b1010#4 .clearOne ∧
    ∀ (s : State) (a fa : Idx), ∃ t, exec (.clearOne a fa) s = .next t ∧ t.readM fa = 0b00000#5 ∧
      KeepsOtherWords s t fa ∧ Reports s t ⟨[.cleared fa, .renderMem t.M], .ok, .continues, true⟩ ∧
      FlagsAre t false false false

/-- CLEAR_ALL (44_clear.md R81): encoding, every word zero, confirmation and `RenderMem`; `ACC` and all else
unchanged. -/
def Obligations.ClearAllClearsEveryWord : Prop :=
  ReadsNoField 0b1011#4 .clearAll ∧
    ∀ s : State, ∃ t, exec .clearAll s = .next t ∧ (∀ b : Idx, t.readM b = 0b00000#5) ∧
      Reports s t ⟨[.clearedAll, .renderMem t.M], .ok, .continues, false⟩ ∧ FlagsAre t false false false

/-- The unknown opcodes (40_control.md R60): the five patterns decode to `invalid` whatever the other fields
hold; the step reports `UnknownOpcode` and changes nothing. -/
def Obligations.UnknownOpcodeIsReportedOnly : Prop :=
  (∀ op ∈ [0b0110#4, 0b1100#4, 0b1101#4, 0b1110#4, 0b1111#4], ReadsNoField op (.invalid op)) ∧
    ∀ (s : State) (op : Opcode), ∃ t, exec (.invalid op) s = .next t ∧ KeepsMemory s t ∧
      Reports s t ⟨[.error .unknownOpcode], .unknownOpcode, .continues, false⟩ ∧ FlagsAre t false false false

/-! ### Frames -/

/-- No instruction changes a word that 10_state.md R14 does not let it write; `ACC` is LOAD's, `RUN` is HALT's,
the host's acts are nobody's, and the log grows by one report. -/
def Obligations.InstructionsKeepWhatTheyDoNotWrite : Prop :=
  ∀ (i : Instr) (s t : State), exec i s = .next t →
    (∀ b : Idx, mayWriteWord i b = false → t.readM b = s.readM b) ∧
      ((∀ a, i ≠ .load a) → t.acc = s.acc) ∧ (i ≠ .halt → t.run = s.run) ∧ t.input = s.input ∧
      ∃ o, t.outputs = s.outputs ++ [o]

/-- A LOAD sees the word that a STORE left, with exactly one instruction between them, any that may not write the
word (one case of 20_memory.md R35 and 70_reset_and_hazards.md R99). -/
def Obligations.LoadSeesTheLastStore : Prop :=
  ∀ (s t u : State) (a : Idx) (w : Word) (i : Instr),
    exec (.store a w) s = .next t → exec i t = .next u → mayWriteWord i a = false →
      ∃ v, exec (.load a) u = .next v ∧ v.acc = w

/-- `ACC` is no operand: changing it changes nothing that an instruction does to `M`, `RUN` and the reports
(10_state.md R16). -/
def Obligations.AccIsNeverAnOperand : Prop :=
  ∀ (i : Instr) (s t : State) (v : Word), exec i s = .next t →
    ∃ t', exec i { s with acc := v } = .next t' ∧ t'.M = t.M ∧ t'.run = t.run ∧ t'.outputs = t.outputs ∧
      t'.input = t.input

/-- No instruction reads a flag or any earlier output: with another log the step leaves the same `M`, `ACC` and
`RUN` and makes the same report (10_state.md R20, R21). -/
def Obligations.EarlierReportsAreNeverRead : Prop :=
  ∀ (i : Instr) (s t : State) (outs : List StepOut), exec i s = .next t →
    ∃ t' o, exec i { s with outputs := outs } = .next t' ∧ t'.M = t.M ∧ t'.acc = t.acc ∧ t'.run = t.run ∧
      t.outputs = s.outputs ++ [o] ∧ t'.outputs = outs ++ [o]

/-! ### The ALU, the flags and the errors -/

/-- The ALU's results on all operands 0..31: exact, never wrapped (42_alu.md R74). -/
def Obligations.AluNeverWraps : Prop :=
  ∀ x y : Nat, x ≤ 31 → y ≤ 31 →
    alu .add x y = (if x + y ≤ 31 then ⟨.ok, .write (BitVec.ofNat 5 (x + y))⟩ else ⟨.overflow, .noWrite⟩) ∧
      alu .sub x y = (if y ≤ x then ⟨.ok, .write (BitVec.ofNat 5 (x - y))⟩ else ⟨.underflow, .write 0#5⟩) ∧
      alu .mul x y = (if x * y ≤ 31 then ⟨.ok, .write (BitVec.ofNat 5 (x * y))⟩ else ⟨.overflow, .noWrite⟩) ∧
      alu .div x y = (if y = 0 then ⟨.divByZero, .noWrite⟩ else ⟨.ok, .write (BitVec.ofNat 5 (x / y))⟩)

/-- Any signed intermediate width of 11 bits or more gives the block's results (00_scope.md R5). -/
def Obligations.AnyAluWidthFromElevenAgrees : Prop :=
  ∀ (W : Nat) (k : AluOp) (x y : Nat), 11 ≤ W → x ≤ 31 → y ≤ 31 → aluAt W k x y = alu k x y

/-- The flag detector (42_alu.md R69): in every step on an instruction each flag is 1 exactly on its status, at
most one is 1, and all are 0 in a step that does not run the ALU operation that can fail so. -/
def Obligations.FlagsFollowTheStatus : Prop :=
  ∀ (s t : State) (inp : StepInput) (rest : List Stimulus),
    s.run = .running → Presents s inp rest → step s = .next t →
      ∃ o g, t.outputs = s.outputs ++ [o] ∧ t.signals? = some g ∧ g.status = o.status.code ∧
        (g.ovf = true ↔ o.status = .overflow) ∧ (g.unf = true ↔ o.status = .underflow) ∧
        (g.dz = true ↔ o.status = .divByZero) ∧
        (g.ovf && g.unf) = false ∧ (g.ovf && g.dz) = false ∧ (g.unf && g.dz) = false ∧
        (g.ovf = true → ∃ a imm, decode inp = .ok (.add a imm) ∨ decode inp = .ok (.mul a imm)) ∧
        (g.unf = true → ∃ a imm, decode inp = .ok (.sub a imm)) ∧
        (g.dz = true → ∃ a imm, decode inp = .ok (.div a imm))

/-- The table of 60_exceptions.md R84, the status codes with the error class and the flags of each, and a HALT
step's code; that every step on an instruction drives its code is `FlagsFollowTheStatus`. -/
def Obligations.StatusCodesAreTheTables : Prop :=
  Status.ok.code = 0#3 ∧ Status.malformedToken.code = 1#3 ∧ Status.unknownOpcode.code = 2#3 ∧
    Status.overflow.code = 3#3 ∧ Status.underflow.code = 4#3 ∧ Status.divByZero.code = 5#3 ∧
    (∀ f, (ErrorKind.malformedToken f).status = .malformedToken) ∧
    ErrorKind.unknownOpcode.status = .unknownOpcode ∧ ErrorKind.arithmeticOverflow.status = .overflow ∧
    ErrorKind.arithmeticUnderflow.status = .underflow ∧ ErrorKind.divisionByZero.status = .divByZero ∧
    (∀ st : Status, st.ovf = (st.code == 3#3) ∧ st.unf = (st.code == 4#3) ∧ st.dz = (st.code == 5#3) ∧
      st.code ≠ 6#3 ∧ st.code ≠ 7#3) ∧
    ∀ s : State, ∃ t o, exec .halt s = .next t ∧ t.outputs = s.outputs ++ [o] ∧ o.status.code = 0#3

/-- Who raises each error class, and when (60_exceptions.md R83). -/
def Obligations.EachErrorIsRaisedExactlyWhenItsRuleSays : Prop :=
  ∀ (s t : State) (inp : StepInput) (rest : List Stimulus),
    s.run = .running → Presents s inp rest → step s = .next t →
      ∃ o, t.outputs = s.outputs ++ [o] ∧
        (∀ f, ErrorKind.malformedToken f ∈ o.errors ↔ decode inp = .error f) ∧
        (ErrorKind.unknownOpcode ∈ o.errors ↔ ∃ op, inp.op = .bits op ∧ opclass op = .invalid) ∧
        (ErrorKind.arithmeticOverflow ∈ o.errors ↔
          ∃ a imm, (decode inp = .ok (.add a imm) ∧ 31 < (s.readM a).toNat + imm.toNat) ∨
            (decode inp = .ok (.mul a imm) ∧ 31 < (s.readM a).toNat * imm.toNat)) ∧
        (ErrorKind.arithmeticUnderflow ∈ o.errors ↔
          ∃ a imm, decode inp = .ok (.sub a imm) ∧ (s.readM a).toNat < imm.toNat) ∧
        (ErrorKind.divisionByZero ∈ o.errors ↔ ∃ a, decode inp = .ok (.div a 0b00000#5))

/-- State and events after each error (60_exceptions.md R87). -/
def Obligations.StateAndEventsAfterEachError : Prop :=
  ∀ (s t : State) (inp : StepInput) (rest : List Stimulus),
    s.run = .running → Presents s inp rest → step s = .next t →
      ∃ o, t.outputs = s.outputs ++ [o] ∧ (o.errors ≠ [] → t.acc = s.acc) ∧
        (∀ f, ErrorKind.malformedToken f ∈ o.errors →
          KeepsMemory s t ∧ o.events = [.error (.malformedToken f)]) ∧
        (ErrorKind.unknownOpcode ∈ o.errors → KeepsMemory s t ∧ o.events = [.error .unknownOpcode]) ∧
        (ErrorKind.arithmeticOverflow ∈ o.errors →
          KeepsMemory s t ∧ o.events = [.error .arithmeticOverflow, .renderMem t.M]) ∧
        (ErrorKind.arithmeticUnderflow ∈ o.errors →
          ∃ a imm, decode inp = .ok (.sub a imm) ∧ t.readM a = 0b00000#5 ∧ KeepsOtherWords s t a ∧
            o.events = [.error .arithmeticUnderflow, .renderMem t.M]) ∧
        (ErrorKind.divisionByZero ∈ o.errors →
          KeepsMemory s t ∧ o.events = [.error .divisionByZero, .renderMem t.M])

/-- Every error is non-fatal: the outcome is `Continue` and the block stays Running (60_exceptions.md R86). -/
def Obligations.EveryErrorContinues : Prop :=
  ∀ (s t : State) (inp : StepInput) (rest : List Stimulus),
    s.run = .running → Presents s inp rest → step s = .next t →
      ∃ o, t.outputs = s.outputs ++ [o] ∧ (o.errors ≠ [] → o.outcome = .continues ∧ t.run = .running)

/-- Only HALT returns `Halt`: every other step on an instruction, each error among them, returns `Continue`
(10_state.md R26). -/
def Obligations.OnlyHaltReturnsHalt : Prop :=
  ∀ (s t : State) (inp : StepInput) (rest : List Stimulus),
    s.run = .running → Presents s inp rest → step s = .next t →
      ∃ o, t.outputs = s.outputs ++ [o] ∧ (o.outcome = .halts ↔ decode inp = .ok .halt) ∧
        (o.outcome = .continues ↔ decode inp ≠ .ok .halt)

/-- A rendered snapshot carries the values after the step's writes (10_state.md R25, 20_memory.md R35), and a step
that changes a word or `ACC` renders it. -/
def Obligations.RendersShowTheStateAfterTheStep : Prop :=
  ∀ (i : Instr) (s t : State), exec i s = .next t →
    ∃ o, t.outputs = s.outputs ++ [o] ∧ (∀ m, Event.renderMem m ∈ o.events → m = t.M) ∧
      (∀ w, Event.renderAcc w ∈ o.events → w = t.acc) ∧ (t.M ≠ s.M → Event.renderMem t.M ∈ o.events) ∧
      (t.acc ≠ s.acc → Event.renderAcc t.acc ∈ o.events)

/-- ADD then SUB with the same immediate restores every word, unless the sum overflowed (95_test_vectors.md T1,
42_alu.md R70, R71). -/
def Obligations.AddThenSubRestoresTheWord : Prop :=
  ∀ (s : State) (a : Idx) (imm : Word), (s.readM a).toNat + imm.toNat ≤ 31 →
    ∃ t u, exec (.add a imm) s = .next t ∧ exec (.sub a imm) t = .next u ∧ KeepsMemory s u

/-! ### Invariants -/

/-- Every step keeps: a halted block has reported its final register file as the last event
(70_reset_and_hazards.md R103, 40_control.md R62). -/
def Obligations.StepKeepsHaltReported : Prop :=
  ∀ s t : State, HaltReported s → step s = .next t → HaltReported t

/-- Every step keeps: only the last step may have the outcome `Halt`, and the block is Halted exactly then
(10_state.md R17, R26). -/
def Obligations.StepKeepsRunMatchesLog : Prop :=
  ∀ s t : State, RunMatchesLog s → step s = .next t → RunMatchesLog t

/-- Every step keeps: the events since reset show the whole of `M` and `ACC` (10_state.md R16, R25). -/
def Obligations.StepKeepsLogShowsState : Prop :=
  ∀ s t : State, LogShowsState s → step s = .next t → LogShowsState t

/-- Every step keeps: each report has at most one error, first, with its own status, and then continues
(60_exceptions.md R84, R85, R86). -/
def Obligations.StepKeepsLogConsistent : Prop :=
  ∀ s t : State, LogConsistent s → step s = .next t → LogConsistent t

/-- The reset state meets the four invariants. -/
def Obligations.ResetMeetsTheInvariants : Prop :=
  HaltReported State.reset ∧ RunMatchesLog State.reset ∧ LogShowsState State.reset ∧ LogConsistent State.reset
end

