-- ==== Sys2Proof/Laws/Codec.lean ====
section
/-! SUPPORT. The codec and the instruction format: one lemma per definition. -/

namespace Sys2Proof

@[simp] theorem toInt_nil : toInt [] = 0 := rfl

@[simp] theorem toInt_cons (c : Char) (t : TokenText) :
    toInt (c :: t) = (if c = '1' then 2 ^ t.length else 0) + toInt t := rfl

/-- A string of `n` characters has a value below `2^n`. -/
theorem toInt_lt (t : TokenText) : toInt t < 2 ^ t.length := by
  induction t with
  | nil => simp
  | cons c t ih =>
    rw [toInt_cons, List.length_cons, Nat.pow_succ]
    split <;> omega

@[simp] theorem spell_length {n : Nat} (b : BitVec n) : (spell b).length = n := by simp [spell]

/-- Every character of a spelled vector is '0' or '1'. -/
theorem spell_binary {n : Nat} (b : BitVec n) : (spell b).all isBinaryChar = true := by
  simp only [spell, List.all_map, List.all_eq_true, List.mem_range, Function.comp_apply]
  intro k _
  split <;> rfl

/-- A spelled vector passes the front end's check. -/
theorem validateBinary_spell {n : Nat} (b : BitVec n) : validateBinary (spell b) n = true := by
  simp [validateBinary, spell_binary]

theorem toFixedWidth_of_lt {v w : Nat} (h : v < 2 ^ w) : toFixedWidth v w = (BitVec.ofNat w v, false) := by
  simp [toFixedWidth, Nat.not_le.mpr h]

theorem toFixedWidth_of_le {v w : Nat} (h : 2 ^ w ≤ v) : toFixedWidth v w = (0#w, true) := by
  simp [toFixedWidth, h]

theorem tok_ofText_of_valid {n : Nat} {t : TokenText} (h : validateBinary t n = true) :
    Tok.ofText n t = .bits (BitVec.ofNat n (toInt t)) := by
  simp [Tok.ofText, h]

theorem tok_ofText_of_invalid {n : Nat} {t : TokenText} (h : validateBinary t n = false) :
    Tok.ofText n t = .malformed := by
  simp [Tok.ofText, h]

@[simp] theorem opField_packWord (op : Opcode) (a : Idx) (imm : Word) : opField (packWord op a imm) = op := by
  apply BitVec.eq_of_getLsbD_eq
  intro i hi
  simp only [opField, packWord, BitVec.getLsbD_extractLsb', BitVec.getLsbD_append, hi, decide_true, Bool.true_and]
  simp [show ¬ 8 + i < 5 by omega, show ¬ 8 + i - 5 < 3 by omega, show 8 + i - 5 - 3 = i by omega]

@[simp] theorem aField_packWord (op : Opcode) (a : Idx) (imm : Word) : aField (packWord op a imm) = a := by
  apply BitVec.eq_of_getLsbD_eq
  intro i hi
  simp only [aField, packWord, BitVec.getLsbD_extractLsb', BitVec.getLsbD_append, hi, decide_true, Bool.true_and]
  simp [hi]

@[simp] theorem immField_packWord (op : Opcode) (a : Idx) (imm : Word) : immField (packWord op a imm) = imm := by
  apply BitVec.eq_of_getLsbD_eq
  intro i hi
  simp only [immField, packWord, BitVec.getLsbD_extractLsb', BitVec.getLsbD_append, hi, decide_true, Bool.true_and]
  simp [hi]

/-- A field that the opcode does not use counts as the zero placeholder. -/
@[simp] theorem readField_unused {n : Nat} (f : TokenField) (t : Tok n) : readField false f t = .ok 0#n := rfl

@[simp] theorem readField_bits {n : Nat} (f : TokenField) (b : BitVec n) : readField true f (.bits b) = .ok b := rfl

@[simp] theorem readField_malformed {n : Nat} (f : TokenField) :
    readField true f (.malformed : Tok n) = .error f := rfl

/-- The bundle of a word written field by field. -/
theorem ofWord_append (op : Opcode) (a : Idx) (imm : Word) (fa : Tok 3) :
    StepInput.ofWord (op ++ a ++ imm) fa = ⟨.bits op, .bits a, .bits imm, fa⟩ := by
  rw [StepInput.ofWord, ← packWord, opField_packWord, aField_packWord, immField_packWord]

/-- The class that assembles an instruction is its class. -/
@[simp] theorem opClass_assemble (k : OpClass) (o : Opcode) (a : Idx) (imm : Word) (fa : Idx) :
    (assemble k o a imm fa).opClass = k := by
  cases k <;> rfl

/-- Everything that a decoded instruction says of its bundle: the opcode, and each field that is read. -/
theorem decode_ok_cases {inp : StepInput} {i : Instr} (h : decode inp = .ok i) :
    ∃ o a imm fa, inp.op = .bits o ∧ opclass o = i.opClass ∧ i = assemble (opclass o) o a imm fa ∧
      readField (opclass o).usesA .address inp.a = .ok a ∧ readField (opclass o).usesImm .operand inp.imm = .ok imm ∧
      readField (opclass o).usesFa .followUp inp.fa = .ok fa := by
  unfold decode at h
  split at h
  · cases h
  · split at h
    · cases h
    · split at h
      · cases h
      · split at h
        · cases h
        · cases h
          exact ⟨_, _, _, _, ‹_›, (opClass_assemble ..).symm, rfl, ‹_›, ‹_›, ‹_›⟩

/-- An unknown opcode is never a malformed token (60_exceptions.md R85). -/
theorem decode_error_opclass {inp : StepInput} {f : TokenField} (h : decode inp = .error f) {o : Opcode}
    (ho : inp.op = .bits o) : opclass o ≠ .invalid := by
  intro hk
  simp [decode, ho, hk, OpClass.usesA, OpClass.usesImm, OpClass.usesFa] at h

/-- The opcode map takes an instruction's opcode to its class. -/
theorem opclass_opcodeOf {i : Instr} (h : i.wellFormed = true) : opclass (opcodeOf i) = i.opClass := by
  cases i with
  | invalid op => revert op; decide
  | _ => rfl

/-- `wellFormed` agrees with the opcode map on unmapped patterns. -/
theorem wellFormed_invalid_iff (op : Opcode) : (Instr.invalid op).wellFormed = true ↔ opclass op = .invalid := by
  revert op; decide

end Sys2Proof
end

