-- ==== Sys2Proof/Laws/State.lean ====
section
/-! SUPPORT. One lemma per field per update, all by `rfl`. -/

namespace Sys2Proof.Machine

@[simp] theorem writeM_M (s : State) (a : Idx) (v : Word) : (s.writeM a v).M = s.M.set a.toNat v a.isLt := rfl
@[simp] theorem writeM_acc (s : State) (a : Idx) (v : Word) : (s.writeM a v).acc = s.acc := rfl
@[simp] theorem writeM_run (s : State) (a : Idx) (v : Word) : (s.writeM a v).run = s.run := rfl
@[simp] theorem writeM_input (s : State) (a : Idx) (v : Word) : (s.writeM a v).input = s.input := rfl
@[simp] theorem writeM_outputs (s : State) (a : Idx) (v : Word) : (s.writeM a v).outputs = s.outputs := rfl

@[simp] theorem clearM_M (s : State) : s.clearM.M = Vector.replicate 8 0#5 := rfl
@[simp] theorem clearM_acc (s : State) : s.clearM.acc = s.acc := rfl
@[simp] theorem clearM_run (s : State) : s.clearM.run = s.run := rfl
@[simp] theorem clearM_input (s : State) : s.clearM.input = s.input := rfl
@[simp] theorem clearM_outputs (s : State) : s.clearM.outputs = s.outputs := rfl

@[simp] theorem writeAcc_M (s : State) (v : Word) : (s.writeAcc v).M = s.M := rfl
@[simp] theorem writeAcc_acc (s : State) (v : Word) : (s.writeAcc v).acc = v := rfl
@[simp] theorem writeAcc_run (s : State) (v : Word) : (s.writeAcc v).run = s.run := rfl
@[simp] theorem writeAcc_input (s : State) (v : Word) : (s.writeAcc v).input = s.input := rfl
@[simp] theorem writeAcc_outputs (s : State) (v : Word) : (s.writeAcc v).outputs = s.outputs := rfl

@[simp] theorem halt_M (s : State) : s.halt.M = s.M := rfl
@[simp] theorem halt_acc (s : State) : s.halt.acc = s.acc := rfl
@[simp] theorem halt_run (s : State) : s.halt.run = .halted := rfl
@[simp] theorem halt_input (s : State) : s.halt.input = s.input := rfl
@[simp] theorem halt_outputs (s : State) : s.halt.outputs = s.outputs := rfl

@[simp] theorem finish_M (s : State) (o : StepOut) : (s.finish o).M = s.M := rfl
@[simp] theorem finish_acc (s : State) (o : StepOut) : (s.finish o).acc = s.acc := rfl
@[simp] theorem finish_run (s : State) (o : StepOut) : (s.finish o).run = s.run := rfl
@[simp] theorem finish_input (s : State) (o : StepOut) : (s.finish o).input = s.input := rfl
@[simp] theorem finish_outputs (s : State) (o : StepOut) : (s.finish o).outputs = s.outputs ++ [o] := rfl

@[simp] theorem raise_M (s : State) (k : ErrorKind) : (s.raise k).M = s.M := rfl
@[simp] theorem raise_acc (s : State) (k : ErrorKind) : (s.raise k).acc = s.acc := rfl
@[simp] theorem raise_run (s : State) (k : ErrorKind) : (s.raise k).run = s.run := rfl
@[simp] theorem raise_input (s : State) (k : ErrorKind) : (s.raise k).input = s.input := rfl
@[simp] theorem raise_outputs (s : State) (k : ErrorKind) : (s.raise k).outputs = s.outputs ++ [errorOut k] := rfl

@[simp] theorem resetWith_M (r : List Stimulus) : (resetWith r).M = Config.resetM := rfl
@[simp] theorem resetWith_acc (r : List Stimulus) : (resetWith r).acc = Config.resetAcc := rfl
@[simp] theorem resetWith_run (r : List Stimulus) : (resetWith r).run = .running := rfl
@[simp] theorem resetWith_input (r : List Stimulus) : (resetWith r).input = r := rfl
@[simp] theorem resetWith_outputs (r : List Stimulus) : (resetWith r).outputs = [] := rfl

@[simp] theorem present_M (s : State) (i : StepInput) : (s.present i).M = s.M := rfl
@[simp] theorem present_acc (s : State) (i : StepInput) : (s.present i).acc = s.acc := rfl
@[simp] theorem present_run (s : State) (i : StepInput) : (s.present i).run = s.run := rfl
@[simp] theorem present_input (s : State) (i : StepInput) : (s.present i).input = .bundle i :: s.input := rfl
@[simp] theorem present_outputs (s : State) (i : StepInput) : (s.present i).outputs = s.outputs := rfl

@[simp] theorem okOut_events (es : List Event) (q : Bool) : (okOut es q).events = es := rfl
@[simp] theorem okOut_status (es : List Event) (q : Bool) : (okOut es q).status = .ok := rfl
@[simp] theorem okOut_outcome (es : List Event) (q : Bool) : (okOut es q).outcome = .continues := rfl
@[simp] theorem okOut_faReq (es : List Event) (q : Bool) : (okOut es q).faReq = q := rfl

@[simp] theorem errorOut_events (k : ErrorKind) : (errorOut k).events = [.error k] := rfl
@[simp] theorem errorOut_status (k : ErrorKind) : (errorOut k).status = k.status := rfl
@[simp] theorem errorOut_outcome (k : ErrorKind) : (errorOut k).outcome = .continues := rfl
@[simp] theorem errorOut_faReq (k : ErrorKind) : (errorOut k).faReq = errorFaReq k := rfl

end Sys2Proof.Machine
end

