-- ==== Sys2Proof/Laws/Ops.lean ====
section
/-! SUPPORT. What reads, writes, the ALU's write-back and the fetch can do. -/

namespace Sys2Proof.Machine

/-- Reading depends on the register file alone. -/
theorem readM_congr {s t : State} (h : t.M = s.M) (b : Idx) : t.readM b = s.readM b := by
  simp only [State.readM, h]

/-- Read after write to the same index. -/
@[simp] theorem readM_writeM_same (s : State) (a : Idx) (v : Word) : (s.writeM a v).readM a = v := by
  simp [State.readM]

/-- Read after write to another index. -/
theorem readM_writeM_other (s : State) {a b : Idx} (v : Word) (h : b ≠ a) :
    (s.writeM a v).readM b = s.readM b := by
  have : a.toNat ≠ b.toNat := fun e => h (BitVec.eq_of_toNat_eq e.symm)
  simp [State.readM, this]

@[simp] theorem readM_clearM (s : State) (b : Idx) : s.clearM.readM b = 0#5 := by
  simp [State.readM]

@[simp] theorem readM_writeAcc (s : State) (v : Word) (b : Idx) : (s.writeAcc v).readM b = s.readM b := rfl

@[simp] theorem readM_halt (s : State) (b : Idx) : s.halt.readM b = s.readM b := rfl

@[simp] theorem readM_finish (s : State) (o : StepOut) (b : Idx) : (s.finish o).readM b = s.readM b := rfl

@[simp] theorem readM_raise (s : State) (k : ErrorKind) (b : Idx) : (s.raise k).readM b = s.readM b := rfl

/-- Two register files are equal when every index reads the same. -/
theorem regFile_ext {s t : State} (h : ∀ b, t.readM b = s.readM b) : t.M = s.M := by
  apply Vector.ext
  intro i hi
  simpa [State.readM, Nat.mod_eq_of_lt hi] using h (BitVec.ofNat 3 i)

/-- Writing back what a word holds changes nothing (20_memory.md R33). -/
theorem writeM_readM (s : State) (a : Idx) : (s.writeM a (s.readM a)).M = s.M := by
  simp [State.readM]

@[simp] theorem applyAction_acc (s : State) (a : Idx) (act : AluAction) : (s.applyAction a act).acc = s.acc := by
  cases act <;> rfl

@[simp] theorem applyAction_run (s : State) (a : Idx) (act : AluAction) : (s.applyAction a act).run = s.run := by
  cases act <;> rfl

@[simp] theorem applyAction_input (s : State) (a : Idx) (act : AluAction) :
    (s.applyAction a act).input = s.input := by
  cases act <;> rfl

@[simp] theorem applyAction_outputs (s : State) (a : Idx) (act : AluAction) :
    (s.applyAction a act).outputs = s.outputs := by
  cases act <;> rfl

/-- The write-back touches no word but its own (42_alu.md R75). -/
theorem readM_applyAction_other (s : State) {a b : Idx} (act : AluAction) (h : b ≠ a) :
    (s.applyAction a act).readM b = s.readM b := by
  cases act with
  | write w => exact readM_writeM_other s w h
  | noWrite => rfl

/-- Everything the fetch can answer. -/
theorem fetch_cases (s : State) :
    (s.input = [] ∧ fetch s = .stop (idleFault s.run)) ∨
      (∃ act rest, s.input = act :: rest ∧ act.bundle? = none ∧ fetch s = .reset (resetWith rest)) ∨
      (∃ act rest inp, s.input = act :: rest ∧ act.bundle? = some inp ∧
        ((s.run = .running ∧ fetch s = .instr inp { s with input := rest }) ∨
          (s.run = .halted ∧ fetch s = .stop .halted))) := by
  cases hin : s.input with
  | nil => exact .inl ⟨rfl, by simp [fetch, hin]⟩
  | cons act rest =>
    refine .inr ?_
    cases hb : act.bundle? with
    | none => exact .inl ⟨act, rest, rfl, hb, by simp [fetch, hin, hb]⟩
    | some inp =>
      refine .inr ⟨act, rest, inp, rfl, hb, ?_⟩
      cases hr : s.run with
      | running => exact .inl ⟨rfl, by simp [fetch, hin, hb, acceptInstr, hr]⟩
      | halted => exact .inr ⟨rfl, by simp [fetch, hin, hb, acceptInstr, hr]⟩

/-- Only `rst` presents no bundle. -/
theorem bundle_eq_none {act : Stimulus} (h : act.bundle? = none) : act = .rst := by
  cases act <;> simp_all [Stimulus.bundle?]

/-- Everything a step that answers a next state can have done: a reset, a malformed token reported, or
the decoded instruction executed. -/
theorem step_cases {s t : State} (h : step s = .next t) :
    (∃ rest, s.input = .rst :: rest ∧ t = resetWith rest) ∨
      (∃ act rest inp, s.input = act :: rest ∧ act.bundle? = some inp ∧ s.run = .running ∧
        ((∃ f, decode inp = .error f ∧ t = ({ s with input := rest } : State).raise (.malformedToken f)) ∨
          ∃ i, decode inp = .ok i ∧ exec i { s with input := rest } = .next t)) := by
  obtain ⟨-, hf⟩ | ⟨act, rest, hin, hb, hf⟩ | ⟨act, rest, inp, hin, hb, ⟨hr, hf⟩ | ⟨-, hf⟩⟩ := fetch_cases s
  · simp [step, hf] at h
  · obtain rfl := bundle_eq_none hb
    exact .inl ⟨rest, hin, by simpa [step, hf] using h.symm⟩
  · refine .inr ⟨act, rest, inp, hin, hb, hr, ?_⟩
    cases hd : decode inp with
    | error f => exact .inl ⟨f, rfl, by simpa [step, hf, hd] using h.symm⟩
    | ok i => exact .inr ⟨i, rfl, by simpa [step, hf, hd] using h⟩
  · simp [step, hf] at h

end Sys2Proof.Machine
end

