-- ==== Sys2Proof/Laws/Alu.lean ====
section
/-! SUPPORT. One specification lemma per step of the ALU. -/

namespace Sys2Proof.Machine

/-- A width that holds an integer gives it back. -/
theorem aluHold_of_fits {W : Nat} {r : Int} (hW : 11 ≤ W) (hlo : -1024 ≤ r) (hhi : r < 1024) : aluHold W r = r := by
  have hp : (2 : Int) ^ 10 ≤ 2 ^ (W - 1) := by
    exact_mod_cast Nat.pow_le_pow_right (by omega : 1 ≤ 2) (by omega : 10 ≤ W - 1)
  have hs : (2 : Int) ^ W = 2 * 2 ^ (W - 1) := by
    rw [← pow_succ']
    congr 1
    omega
  have hc : (((2 ^ W : Nat)) : Int) = 2 * 2 ^ (W - 1) := by
    push_cast
    exact hs
  have hn : (2 : Int) ^ 10 = 1024 := by norm_num
  rw [aluHold, BitVec.toInt_ofInt]
  apply Int.bmod_eq_of_le <;> omega

theorem reencode_of_le {act : AluAction} {r : Nat} (h : r ≤ 31) :
    reencode act (r : Int) = ⟨.ok, .write (BitVec.ofNat 5 r)⟩ := by
  simp [reencode, toFixedWidth_of_lt (show r < 2 ^ 5 by omega)]

theorem reencode_of_gt {act : AluAction} {r : Nat} (h : 31 < r) : reencode act (r : Int) = ⟨.overflow, act⟩ := by
  simp [reencode, toFixedWidth_of_le (show 2 ^ 5 ≤ r by omega)]

theorem reencodeDifference_of_neg {r : Int} (h : r < 0) : reencodeDifference r = ⟨.underflow, .write 0#5⟩ := by
  simp [reencodeDifference, h]

theorem reencodeDifference_of_nonneg {r : Nat} : reencodeDifference (r : Int) = reencode (.write 0#5) (r : Int) := by
  simp [reencodeDifference]

theorem memOperand_le (s : State) (a : Idx) : s.memOperand a ≤ 31 := by
  have := (s.readM a).isLt
  simp only [State.memOperand]
  omega

theorem immOperand_le (imm : Word) : immOperand imm ≤ 31 := by
  have := imm.isLt
  simp only [immOperand]
  omega

/-- On block operands the ALU either succeeds or fails in the one way of its operation; the checks that the
spec keeps for symmetry cannot fire (93_implementation_defined.md rows 6, 7). -/
theorem alu_status {k : AluOp} {x y : Nat} (hx : x ≤ 31) (hy : y ≤ 31) :
    (alu k x y).status = .ok ∨ (alu k x y).status = k.failure := by
  cases k with
  | add | mul =>
    simp only [alu, aluAt, reencode]
    split <;> simp [AluOp.failure]
  | sub =>
    simp only [alu, aluAt, Config.aluW]
    rw [aluHold_of_fits (by omega) (by omega) (by omega)]
    by_cases h : x < y
    · simp [reencodeDifference_of_neg (show (x : Int) - y < 0 by omega), AluOp.failure]
    · rw [← Nat.cast_sub (by omega : y ≤ x), reencodeDifference_of_nonneg, reencode_of_le (by omega)]
      exact .inl rfl
  | div =>
    have hq := Nat.div_le_self x y
    have h0 : (0 : Int) ≤ ((x / y : Nat) : Int) := Int.natCast_nonneg _
    simp only [alu, aluAt, Config.aluW]
    rw [aluHold_of_fits (by omega) (by omega) (by omega), reencode_of_le (by omega)]
    split <;> simp [AluOp.failure]

@[simp] theorem aluStep_acc (k : AluOp) (a : Idx) (imm : Word) (s : State) : (aluStep k a imm s).acc = s.acc := by
  simp [aluStep]

@[simp] theorem aluStep_run (k : AluOp) (a : Idx) (imm : Word) (s : State) : (aluStep k a imm s).run = s.run := by
  simp [aluStep]

@[simp] theorem aluStep_input (k : AluOp) (a : Idx) (imm : Word) (s : State) :
    (aluStep k a imm s).input = s.input := by
  simp [aluStep]

/-- The register file after an ALU step is the one after the write-back. -/
theorem aluStep_M (k : AluOp) (a : Idx) (imm : Word) (s : State) :
    (aluStep k a imm s).M = (s.applyAction a (alu k (s.memOperand a) (immOperand imm)).action).M := rfl

/-- An ALU step appends one report, which renders the words it leaves. -/
theorem aluStep_outputs (k : AluOp) (a : Idx) (imm : Word) (s : State) :
    (aluStep k a imm s).outputs =
      s.outputs ++ [aluOut k (alu k (s.memOperand a) (immOperand imm)).status (aluStep k a imm s).M] := by
  simp [aluStep]

/-- An ALU step touches no word but its own (42_alu.md R75). -/
theorem readM_aluStep_other (k : AluOp) {a b : Idx} (imm : Word) (s : State) (h : b ≠ a) :
    (aluStep k a imm s).readM b = s.readM b :=
  readM_applyAction_other s _ h

end Sys2Proof.Machine
end

