-- ==== Sys2Proof/Laws/PerInstr.lean ====
section
/-! SUPPORT. The per-instruction family `Encoding`: the opcode field of an encoded instruction is the one the
opcode table gives its operation, and the fields it does not use are zero (30_encoding.md R47, R50, R55). -/

namespace Sys2Proof.Laws.Encoding

/-- The opcode field selects the instruction's own class, unused fields are zero, and a follow-up token is
there exactly where the class takes one. -/
def Statement (i : Instr) : Prop :=
  i.wellFormed = true →
    opclass (opField (encode i).word) = i.opClass ∧
      (i.opClass.usesA = false → aField (encode i).word = 0#3) ∧
      (i.opClass.usesImm = false → immField (encode i).word = 0#5) ∧
      ((encode i).followUp.isSome = i.opClass.usesFa)

theorem halt : Statement .halt := by simp [Statement, encode, opcodeOf, opclass, Instr.opClass, OpClass.usesFa]

theorem load (a : Idx) : Statement (.load a) := by
  simp [Statement, encode, opcodeOf, opclass, Instr.opClass, OpClass.usesA, OpClass.usesFa]

theorem store (a : Idx) (imm : Word) : Statement (.store a imm) := by
  simp [Statement, encode, opcodeOf, opclass, Instr.opClass, OpClass.usesA, OpClass.usesImm, OpClass.usesFa]

theorem add (a : Idx) (imm : Word) : Statement (.add a imm) := by
  simp [Statement, encode, opcodeOf, opclass, Instr.opClass, OpClass.usesA, OpClass.usesImm, OpClass.usesFa]

theorem sub (a : Idx) (imm : Word) : Statement (.sub a imm) := by
  simp [Statement, encode, opcodeOf, opclass, Instr.opClass, OpClass.usesA, OpClass.usesImm, OpClass.usesFa]

theorem mul (a : Idx) (imm : Word) : Statement (.mul a imm) := by
  simp [Statement, encode, opcodeOf, opclass, Instr.opClass, OpClass.usesA, OpClass.usesImm, OpClass.usesFa]

theorem div (a : Idx) (imm : Word) : Statement (.div a imm) := by
  simp [Statement, encode, opcodeOf, opclass, Instr.opClass, OpClass.usesA, OpClass.usesImm, OpClass.usesFa]

theorem compareTwo (a fa : Idx) : Statement (.compareTwo a fa) := by
  simp [Statement, encode, opcodeOf, opclass, Instr.opClass, OpClass.usesA, OpClass.usesFa]

theorem compareAll : Statement .compareAll := by
  simp [Statement, encode, opcodeOf, opclass, Instr.opClass, OpClass.usesFa]

theorem clearOne (a fa : Idx) : Statement (.clearOne a fa) := by
  simp [Statement, encode, opcodeOf, opclass, Instr.opClass, OpClass.usesA, OpClass.usesFa]

theorem clearAll : Statement .clearAll := by
  simp [Statement, encode, opcodeOf, opclass, Instr.opClass, OpClass.usesFa]

theorem invalid (op : Opcode) : Statement (.invalid op) := by
  intro h
  have hk := opclass_opcodeOf h
  simp_all [encode, opcodeOf, Instr.opClass, OpClass.usesFa]

end Sys2Proof.Laws.Encoding
end

