-- ==== Sys2Proof/Laws/Scan.lean ====
section
/-! SUPPORT. COMPARE_ALL's loop and COMPARE_TWO's branches. -/

namespace Sys2Proof.Machine

theorem relation_gt {x z : Nat} (h : z < x) : relation x z = .gt := by simp [relation, h]

theorem relation_lt {x z : Nat} (h : x < z) : relation x z = .lt := by
  simp [relation, h, Nat.lt_asymm h]

theorem relation_self (x : Nat) : relation x x = .eq := by simp [relation]

/-- One turn of the loop is a maximum and a minimum. -/
theorem scanWord_eq (p : Int × Int) (v : Nat) : scanWord p v = (max p.1 v, min p.2 v) := by
  simp only [scanWord, Prod.mk.injEq]
  constructor <;> split <;> omega

end Sys2Proof.Machine
end

