-- ==== Sys2Proof/Tests/Slice0.lean ====
section
/-! SUPPORT. Tests, one step each, with expected results from spec/95_test_vectors.md (the vector's name is in the
comment), and the witnesses that the statements' hypotheses can be met. -/

namespace Sys2Proof.Tests

open Sys2Proof.Machine

/-- The next state, if the outcome is one. -/
def nextOf : Host.Outcome State Fault Refusal → Option State
  | .next s => some s
  | .fault _ => none
  | .refused _ => none

/-- A Running state with these words and this accumulator, nothing presented, no step taken. -/
def st (m : RegFile) (acc : Word) : State := { M := m, acc := acc, run := .running, input := [], outputs := [] }

/-- One step on the word `I` and follow-up token `fa`. -/
def stepOn (s : State) (I : InstrWord) (fa : Tok 3) : Option State := nextOf (step (s.present (StepInput.ofWord I fa)))

/-- What a test looks at: the words, `ACC`, whether Halted, and the latest report. -/
def view (s : State) : RegFile × Word × Bool × Option StepOut := (s.M, s.acc, s.haltedOut, s.outputs.getLast?)

/-- The words of reset (`R0`). -/
def m0 : RegFile := #v[1#5, 2#5, 0#5, 0#5, 0#5, 0#5, 0#5, 0#5]

/-! ### Well-formedness -/

/-- The one check: an `invalid` term with a mapped opcode is refused. -/
theorem test_wellFormed_refuses_mapped_opcode : (Instr.invalid 0b0011#4).wellFormed = false := by decide

theorem test_wellFormed_accepts_unmapped_opcode : (Instr.invalid 0b1101#4).wellFormed = true := by decide

/-! ### Decoding: every constructor, a word written from the formats of 30_encoding.md R43, R47, R55 -/

theorem test_decode_halt : decodeTableWord 16 0b0000_000_00000 = some .halt := by decide
theorem test_decode_load : decodeTableWord 16 0b0001_001_00000 = some (.load 1) := by decide
theorem test_decode_store : decodeTableWord 16 0b0010_010_11111 = some (.store 2 31) := by decide
theorem test_decode_add : decodeTableWord 16 0b0011_000_00011 = some (.add 0 3) := by decide
theorem test_decode_sub : decodeTableWord 16 0b0100_001_10001 = some (.sub 1 17) := by decide
theorem test_decode_mul : decodeTableWord 16 0b0101_001_10000 = some (.mul 1 16) := by decide
theorem test_decode_div : decodeTableWord 16 0b0111_010_00010 = some (.div 2 2) := by decide
theorem test_decode_compareTwo : decodeTableWord 16 0b110_1000_111_00000 = some (.compareTwo 7 6) := by decide
theorem test_decode_compareAll : decodeTableWord 16 0b1001_101_11111 = some .compareAll := by decide
theorem test_decode_clearOne : decodeTableWord 16 0b010_1010_101_00000 = some (.clearOne 5 2) := by decide
theorem test_decode_clearAll : decodeTableWord 16 0b1011_000_00000 = some .clearAll := by decide

theorem test_decode_invalid :
    [0x600, 0xC00, 0xD00, 0xE00, 0xF00].map (decodeTableWord 16) =
      [some (.invalid 0x6), some (.invalid 0xC), some (.invalid 0xD), some (.invalid 0xE), some (.invalid 0xF)] := by
  decide

/-- `ADD 2, 1` is 0x341 and `COMPARE_TWO 1, 0` is 0x820 with follow-up 000 (A5, K1). -/
theorem test_encode_words :
    encode (.add 2 1) = ⟨0x341#12, none⟩ ∧ encode (.compareTwo 1 0) = ⟨0x820#12, some 0⟩ ∧
      encode (.clearOne 0 1) = ⟨0xA00#12, some 1⟩ := by decide

/-! ### Front end and codec -/

/-- V1 to V10. -/
theorem test_validate_binary :
    [(['0', '0', '1', '1'], 4), (['0', '1', '1'], 4), (['0', '0', '1', '1', '0'], 4), ([], 3), (['0', '1', 'x', '1'], 4),
        (['0', ' ', '1', '1'], 4), (['0', '0', '0'], 3), (['1', '1', '1'], 3), (['0', '0', '0', '0', '0'], 5),
        (['0', '0', '1', '2'], 4)].map (fun p : TokenText × Nat => validateBinary p.1 p.2) =
      [true, false, false, false, false, false, true, true, true, false] := by decide

/-- C1 to C6. -/
theorem test_codec :
    toInt ['1', '0', '0', '0', '1'] = 17 ∧ toFixedWidthText 0 5 = (['0', '0', '0', '0', '0'], false) ∧
      toFixedWidthText 31 5 = (['1', '1', '1', '1', '1'], false) ∧
      toFixedWidthText 32 5 = (['0', '0', '0', '0', '0'], true) ∧
      toFixedWidthText 961 5 = (['0', '0', '0', '0', '0'], true) ∧ toInt (toFixedWidthText 4 5).1 = 4 := by decide

/-- E1, E2, E4, E5, E8, E9, E10: the first failing check names its token. -/
theorem test_error_priority :
    [(⟨['0', '1', 'x', '1'], ['0', '0', '0'], ['0', '0', '0', '0', '0'], []⟩ : TextInput),
        ⟨['0', '1', '1', '0'], ['0', 'x', '0'], ['0', 'x', '0', '0', '0'], []⟩,
        ⟨['0', '0', '1', '1'], ['0', 'x', '0'], ['0', 'x', '0', '0', '0'], []⟩,
        ⟨['0', '1', '1', '1'], ['0', '0', '0'], ['0', '0', '0', '0'], []⟩,
        ⟨['1', '0', '0', '0'], ['0', 'x', '1'], ['0', '0', '0', '0', '0'], ['0', '0', '0']⟩,
        ⟨['1', '0', '0', '0'], ['0', '0', '1'], ['0', '0', '0', '0', '0'], ['2', '2']⟩,
        ⟨['1', '0', '1', '0'], ['x'], ['0', '0', '0', '0', '0'], ['0', '0', '1']⟩].map
          (fun t => decode (StepInput.ofText t)) =
      [.error .opcode, .ok (.invalid 6), .error .address, .error .operand, .error .address, .error .followUp,
        .error .address] := by decide

/-- E6 and E11: unread tokens may be malformed. -/
theorem test_unread_tokens :
    decode (StepInput.ofText ⟨['0', '0', '0', '1'], ['0', '0', '1'], ['x', 'x', 'x', 'x', 'x'], []⟩) = .ok (.load 1) ∧
      decode (StepInput.ofText ⟨['1', '0', '0', '1'], ['x', 'x', 'x'], [], []⟩) = .ok .compareAll := by decide

/-- The malformed mark of the input signals decides, whatever the bits under it (10_state.md R24). -/
theorem test_signals_malformed_mark :
    decode (StepInput.ofSignals ⟨0b0011#4, false, 0b001#3, true, 0#5, false, 0#3, false⟩) = .error .address ∧
      decode (StepInput.ofSignals ⟨0b0011#4, false, 0b001#3, false, 3#5, false, 0#3, true⟩) = .ok (.add 1 3) := by
  decide

/-! ### One step per instruction -/

/-- H1, with non-zero placeholders (E7). -/
theorem test_halt :
    (stepOn State.reset 0b0000_101_11111#12 .malformed).map view =
      some (m0, 0, true, some ⟨[.renderMem m0], .ok, .halts, false⟩) := by decide

/-- L1. -/
theorem test_load :
    (stepOn State.reset 0x120#12 .malformed).map view =
      some (m0, 2, false, some ⟨[.renderAcc 0b00010#5], .ok, .continues, false⟩) := by decide

/-- L3. -/
theorem test_store :
    (stepOn State.reset 0x25F#12 .malformed).map view =
      some (#v[1#5, 2#5, 31#5, 0#5, 0#5, 0#5, 0#5, 0#5], 0, false,
        some ⟨[.renderMem #v[1#5, 2#5, 31#5, 0#5, 0#5, 0#5, 0#5, 0#5]], .ok, .continues, false⟩) := by decide

/-- S1. -/
theorem test_add :
    (stepOn State.reset 0x303#12 .malformed).map State.M =
      some #v[4#5, 2#5, 0#5, 0#5, 0#5, 0#5, 0#5, 0#5] := by decide

/-- A5: `31 + 1` overflows and the word stays. -/
theorem test_add_overflow :
    (stepOn (st #v[1#5, 2#5, 31#5, 0#5, 0#5, 0#5, 0#5, 0#5] 0) 0x341#12 .malformed).map view =
      some (#v[1#5, 2#5, 31#5, 0#5, 0#5, 0#5, 0#5, 0#5], 0, false,
        some ⟨[.error .arithmeticOverflow, .renderMem #v[1#5, 2#5, 31#5, 0#5, 0#5, 0#5, 0#5, 0#5]], .overflow,
          .continues, false⟩) := by decide

/-- S2. -/
theorem test_sub :
    (stepOn (st #v[4#5, 2#5, 0#5, 0#5, 0#5, 0#5, 0#5, 0#5] 0) 0x402#12 .malformed).map State.M =
      some #v[2#5, 2#5, 0#5, 0#5, 0#5, 0#5, 0#5, 0#5] := by decide

/-- S3: underflow clamps to zero. -/
theorem test_sub_underflow :
    (stepOn State.reset 0x431#12 .malformed).map view =
      some (#v[1#5, 0#5, 0#5, 0#5, 0#5, 0#5, 0#5, 0#5], 0, false,
        some ⟨[.error .arithmeticUnderflow, .renderMem #v[1#5, 0#5, 0#5, 0#5, 0#5, 0#5, 0#5, 0#5]], .underflow,
          .continues, false⟩) := by decide

/-- M4: `1 * 31` fits. -/
theorem test_mul :
    (stepOn State.reset 0x51F#12 .malformed).map State.M =
      some #v[31#5, 2#5, 0#5, 0#5, 0#5, 0#5, 0#5, 0#5] := by decide

/-- M5: `2 * 16` overflows and is not truncated. -/
theorem test_mul_overflow :
    (stepOn State.reset 0x530#12 .malformed).map view =
      some (m0, 0, false,
        some ⟨[.error .arithmeticOverflow, .renderMem m0], .overflow, .continues, false⟩) := by decide

/-- D2: `31 div 2` truncates to 15. -/
theorem test_div :
    (stepOn (st #v[1#5, 2#5, 31#5, 0#5, 0#5, 0#5, 0#5, 0#5] 0) 0x742#12 .malformed).map State.M =
      some #v[1#5, 2#5, 15#5, 0#5, 0#5, 0#5, 0#5, 0#5] := by decide

/-- D8: `0 div 0` is a division by zero. -/
theorem test_div_by_zero :
    (stepOn State.reset 0x7E0#12 .malformed).map view =
      some (m0, 0, false, some ⟨[.error .divisionByZero, .renderMem m0], .divByZero, .continues, false⟩) := by decide

/-- K1: the values 2 and 1, not the indices. -/
theorem test_compareTwo :
    (stepOn State.reset 0x820#12 (.bits 0)).map view =
      some (m0, 0, false, some ⟨[.cmp .gt], .ok, .continues, true⟩) := by decide

/-- K4: equal values at different indices. -/
theorem test_compareTwo_equal :
    (stepOn State.reset 0x840#12 (.bits 7)).map view =
      some (m0, 0, false, some ⟨[.cmp .eq], .ok, .continues, true⟩) := by decide

/-- K5. -/
theorem test_compareAll :
    (stepOn State.reset 0x900#12 .malformed).map view =
      some (m0, 0, false, some ⟨[.maxMin 0b00010#5 0b00000#5], .ok, .continues, false⟩) := by decide

/-- K7: all words 31. -/
theorem test_compareAll_all_ones :
    ((stepOn (st (Vector.replicate 8 31#5) 0) 0x900#12 .malformed).bind (·.outputs.getLast?)).map StepOut.events =
      some [.maxMin 31#5 31#5] := by decide

/-- Z1. -/
theorem test_clearOne :
    (stepOn State.reset 0xA00#12 (.bits 1)).map view =
      some (#v[1#5, 0#5, 0#5, 0#5, 0#5, 0#5, 0#5, 0#5], 0, false,
        some ⟨[.cleared 1, .renderMem #v[1#5, 0#5, 0#5, 0#5, 0#5, 0#5, 0#5, 0#5]], .ok, .continues, true⟩) := by
  decide

/-- The primary address never selects the target (44_clear.md R80's corner case, as Z2). -/
theorem test_clearOne_ignores_a :
    (stepOn (st (Vector.replicate 8 3#5) 0) 0xAA0#12 (.bits 2)).map State.M =
      some #v[3#5, 3#5, 0#5, 3#5, 3#5, 3#5, 3#5, 3#5] := by decide

/-- Z5: `ACC` stays 2. -/
theorem test_clearAll :
    (stepOn (st m0 2) 0xB00#12 .malformed).map view =
      some (#v[0#5, 0#5, 0#5, 0#5, 0#5, 0#5, 0#5, 0#5], 2, false,
        some ⟨[.clearedAll, .renderMem #v[0#5, 0#5, 0#5, 0#5, 0#5, 0#5, 0#5, 0#5]], .ok, .continues, false⟩) := by
  decide

/-- H3. -/
theorem test_invalid :
    (stepOn State.reset 0x600#12 .malformed).map view =
      some (m0, 0, false, some ⟨[.error .unknownOpcode], .unknownOpcode, .continues, false⟩) := by decide

/-! ### The step around the instruction -/

/-- Z3: a malformed follow-up token. -/
theorem test_malformed_followUp :
    (stepOn State.reset 0xA00#12 .malformed).map view =
      some (m0, 0, false, some ⟨[.error (.malformedToken .followUp)], .malformedToken, .continues, true⟩) := by decide

/-- P3 step 3, through text. -/
theorem test_text_malformed_operand :
    (nextOf (step { State.reset with
      input := [.text ⟨['0', '0', '1', '1'], ['0', '0', '1'], ['0', '0', '1', '1'], []⟩] })).map view =
      some (m0, 0, false, some ⟨[.error (.malformedToken .operand)], .malformedToken, .continues, false⟩) := by decide

/-- H2. -/
theorem test_no_step_while_halted : stepOn { st m0 0 with run := .halted } 0x100#12 .malformed = none := by decide

/-- R96: reset is taken while Halted. -/
theorem test_rst_while_halted :
    nextOf (step { st #v[9#5, 9#5, 9#5, 9#5, 9#5, 9#5, 9#5, 9#5] 7 with run := .halted, input := [.rst] }) =
      some State.reset := by decide

/-- The flag outputs of S3's step: `UNF` alone, status code 4. -/
theorem test_signals_underflow :
    ((stepOn State.reset 0x431#12 .malformed).bind State.signals?).map (fun g => (g.status, g.ovf, g.unf, g.dz)) =
      some (4#3, false, true, false) := by decide

/-- A table word placed at reset is what the next step runs. -/
theorem test_withFetchWord :
    (nextOf (step (State.reset.withFetchWord 16 0x303))).map State.M =
      some #v[4#5, 2#5, 0#5, 0#5, 0#5, 0#5, 0#5, 0#5] := by decide

/-! ### Witnesses: the hypotheses of each statement can be met, each clause at a boundary -/

/-- A Running block to which the host presents `inp` and then nothing. -/
def offered (s : State) (inp : StepInput) : State := { s with input := [.bundle inp] }

/-- The bundle of a word with the follow-up token `fa`. -/
def bun (I : InstrWord) (fa : Tok 3) : StepInput := StepInput.ofWord I fa

/-- DecodeOfEncodeIsTheInstruction, TextOfEncodeDecodesToTheInstruction. -/
theorem witness_wellFormed :
    (Instr.invalid 0b1111#4).wellFormed = true ∧ (Instr.clearOne 7 7).wellFormed = true ∧
      (Instr.store 7 31).wellFormed = true := by decide

/-- UnreadFieldsHaveNoEffect: a LOAD whose operand and follow-up tokens differ. -/
theorem witness_unread_fields :
    AgreeOnReadFields ⟨.bits 0b0001#4, .bits 7#3, .malformed, .malformed⟩
      ⟨.bits 0b0001#4, .bits 7#3, .bits 31#5, .bits 7#3⟩ := by
  refine ⟨rfl, fun o h => ?_⟩
  cases h
  decide

/-- FirstFailingCheckDecides: an opcode for each clause. -/
theorem witness_checks :
    opclass 0b0110#4 = .invalid ∧ (opclass 0b0001#4).usesA = true ∧
      ((opclass 0b0111#4).usesImm = true ∧ (Tok.bits 7#3 : Tok 3) ≠ .malformed) ∧
      (opclass 0b1000#4).usesFa = true ∧ (opclass 0b1010#4).usesFa = true ∧
      ((opclass 0b0000#4).usesA = false ∧ (opclass 0b0000#4).usesImm = false ∧ (opclass 0b0000#4).usesFa = false) := by
  decide

/-- FrontEndValidatesExactlyBinaryTokens, ToIntIsBaseTwo, CodecRoundTrips: a valid and an invalid token. -/
theorem witness_tokens :
    validateBinary ['1', '1', '1'] 3 = true ∧ validateBinary ['1', '1'] 3 = false ∧ validateBinary [] 0 = true := by
  decide

/-- ToFixedWidthNeverTruncates, CodecRoundTrips: both sides of the bound. -/
theorem witness_widths : (31 : Nat) < 2 ^ 5 ∧ (2 : Nat) ^ 5 ≤ 32 := by decide

/-- StepRunsTheDecodedInstruction, EveryPresentedInstructionCompletes, FollowUpIsRequestedOnlyAfterTheAddress,
OnlyHaltReturnsHalt: a presented instruction in a Running block, and the step's next state. -/
theorem witness_presented :
    let s := offered State.reset (bun 0x820#12 (.bits 0))
    s.run = .running ∧ Presents s (bun 0x820#12 (.bits 0)) [] ∧
      decode (bun 0x820#12 (.bits 0)) = .ok (.compareTwo 1 0) ∧ ∃ t, step s = .next t :=
  ⟨rfl, ⟨_, rfl, rfl⟩, by decide, ⟨_, rfl⟩⟩

/-- MalformedTokenAbandonsTheInstruction, EveryErrorContinues. -/
theorem witness_malformed :
    let s := offered State.reset (bun 0xA00#12 .malformed)
    s.run = .running ∧ Presents s (bun 0xA00#12 .malformed) [] ∧
      decode (bun 0xA00#12 .malformed) = .error .followUp ∧ ∃ t, step s = .next t :=
  ⟨rfl, ⟨_, rfl, rfl⟩, by decide, ⟨_, rfl⟩⟩

/-- NoStepWhileHaltedOrIdle, StopsAreNamed: an instruction presented while Halted, and the two ways a step exists. -/
theorem witness_halted :
    let s : State := { offered State.reset (bun 0x100#12 .malformed) with run := .halted }
    s.run = .halted ∧ Presents s (bun 0x100#12 .malformed) [] ∧ (∀ rest, s.input ≠ .rst :: rest) ∧
      (∃ t, step { s with input := [.rst] } = .next t) ∧
      ∃ t, step { s with run := .running } = .next t := by
  refine ⟨rfl, ⟨_, rfl, rfl⟩, ?_, ⟨_, rfl⟩, ⟨_, rfl⟩⟩
  intro rest h
  cases h

/-- StopsAreNamed: Running and nothing presented. -/
theorem witness_idle : State.reset.run = .running ∧ State.reset.input = [] := by decide

/-- RstLoadsTheResetState, RstStartsANewLog, OnlyHaltAndResetWriteRun (second clause), OnlyLoadAndResetWriteAcc
(its first case): `rst` with an instruction behind it, from a halted block with another `ACC`. -/
theorem witness_rst :
    let s : State := { st m0 7 with run := .halted, input := [.rst, .bundle (bun 0 .malformed)] }
    s.input = .rst :: [.bundle (bun 0 .malformed)] ∧ s.run = .halted ∧ ∃ t, step s = .next t ∧ t.acc ≠ s.acc :=
  ⟨rfl, rfl, ⟨_, rfl, by decide⟩⟩

/-- OnlyHaltAndResetWriteRun (first and third clauses), StepKeepsHaltReported: a step that halts. -/
theorem witness_halts :
    let s := offered State.reset (bun 0x000#12 .malformed)
    s.run = .running ∧ HaltReported s ∧ ∃ t, step s = .next t ∧ t.run = .halted := by
  refine ⟨rfl, ?_, ⟨_, rfl, rfl⟩⟩
  intro h
  cases h

/-- OnlyLoadAndResetWriteAcc: a LOAD that changes `ACC`. -/
theorem witness_load_changes_acc :
    let s := offered State.reset (bun 0x120#12 .malformed)
    ∃ t, step s = .next t ∧ t.acc ≠ s.acc :=
  ⟨_, rfl, by decide⟩

/-- AddStoresTheSumOrReportsOverflow, AddThenSubRestoresTheWord: the sums 31 and 32. -/
theorem witness_add :
    let s := st #v[15#5, 0#5, 0#5, 0#5, 0#5, 0#5, 0#5, 16#5] 0
    (s.readM 0).toNat + (16#5 : Word).toNat ≤ 31 ∧ 32 ≤ (s.readM 7).toNat + (16#5 : Word).toNat := by decide

/-- SubStoresTheDifferenceOrClampsToZero: the differences 0 and -1. -/
theorem witness_sub :
    let s := st #v[5#5, 0#5, 0#5, 0#5, 0#5, 0#5, 0#5, 30#5] 0
    (5#5 : Word).toNat ≤ (s.readM 0).toNat ∧ (s.readM 7).toNat < (31#5 : Word).toNat := by decide

/-- MulStoresTheProductOrReportsOverflow: the products 31 and 32. -/
theorem witness_mul :
    let s := st #v[1#5, 0#5, 0#5, 0#5, 0#5, 0#5, 0#5, 2#5] 0
    (s.readM 0).toNat * (31#5 : Word).toNat ≤ 31 ∧ 32 ≤ (s.readM 7).toNat * (16#5 : Word).toNat := by decide

/-- DivStoresTheQuotientOrReportsZeroDivisor: the divisors 1 and 0. -/
theorem witness_div : (1#5 : Word) ≠ 0b00000#5 ∧ (0#5 : Word) = 0b00000#5 := by decide

/-- SentinelsDoNotMatter: the nearest sentinels, and an all-zero register file. -/
theorem witness_sentinels :
    (-1 : Int) < 0 ∧ (31 : Int) < 32 ∧ ∀ b, (st (Vector.replicate 8 0#5) 0).readM b = 0#5 := by decide

/-- InstructionsKeepWhatTheyDoNotWrite, AccIsNeverAnOperand, EarlierReportsAreNeverRead, LoadSeesTheLastStore,
RendersShowTheStateAfterTheStep: a STORE that changes its word, then an instruction beside it. -/
theorem witness_exec :
    let s := st m0 3
    ∃ t u, exec (.store 7 31) s = .next t ∧ exec (.mul 6 31) t = .next u ∧ mayWriteWord (.mul 6 31) 7 = false ∧
      (∀ a, Instr.mul 6 31 ≠ .load a) ∧ Instr.mul 6 31 ≠ .halt ∧ t.M ≠ s.M :=
  ⟨_, _, rfl, rfl, by decide, by decide, by decide, by decide⟩

/-- AluNeverWraps, AnyAluWidthFromElevenAgrees: the largest operands at the least width. -/
theorem witness_alu : (11 : Nat) ≤ 11 ∧ (31 : Nat) ≤ 31 := by decide

/-- EachErrorIsRaisedExactlyWhenItsRuleSays, StateAndEventsAfterEachError, EveryErrorContinues,
FlagsFollowTheStatus: a step for each error class. -/
theorem witness_errors :
    ([bun 0x600#12 .malformed, bun 0x800#12 .malformed, bun 0x33E#12 .malformed, bun 0x423#12 .malformed,
        bun 0x700#12 .malformed].map fun inp =>
      ((nextOf (step (offered State.reset inp))).bind (·.outputs.getLast?)).map StepOut.errors) =
      [some [.unknownOpcode], some [.malformedToken .followUp], some [.arithmeticOverflow],
        some [.arithmeticUnderflow], some [.divisionByZero]] := by decide

/-- The four invariants on a state after a HALT, from which `rst` makes a step. -/
theorem witness_invariants :
    let s : State := { st m0 0 with
      run := .halted
      input := [.rst]
      outputs := [⟨[.error .unknownOpcode], .unknownOpcode, .continues, false⟩, ⟨[.renderMem m0], .ok, .halts, false⟩] }
    HaltReported s ∧ RunMatchesLog s ∧ LogShowsState s ∧ LogConsistent s ∧ ∃ t, step s = .next t := by
  refine ⟨fun _ => ⟨_, rfl, rfl, rfl, rfl⟩, ?_, rfl, ?_, ⟨_, rfl⟩⟩
  · refine ⟨by decide, ?_⟩
    exact ⟨fun _ => ⟨_, rfl, rfl⟩, fun _ => rfl⟩
  · intro o ho
    rcases List.mem_cons.mp ho with rfl | ho
    · exact .inr ⟨_, rfl, rfl, rfl, rfl⟩
    · obtain rfl := List.mem_singleton.mp ho
      exact .inl ⟨rfl, rfl⟩

/-- The invariants that a Running block carries into a step on an instruction. -/
theorem witness_invariants_running :
    let s : State := { offered (st m0 2) (bun 0x431#12 .malformed) with
      outputs := [⟨[.renderAcc 2], .ok, .continues, false⟩] }
    RunMatchesLog s ∧ LogShowsState s ∧ LogConsistent s ∧ ∃ t, step s = .next t := by
  refine ⟨⟨by decide, ?_⟩, rfl, ?_, ⟨_, rfl⟩⟩
  · constructor
    · intro h; cases h
    · rintro ⟨o, h, h'⟩; cases h; cases h'
  · intro o ho
    obtain rfl := List.mem_singleton.mp ho
    exact .inl ⟨rfl, rfl⟩

end Sys2Proof.Tests
end

section
/-! PROOFS. The ALU on the integers, and that every width from 11 bits on computes it (00_scope.md R5, 42_alu.md R67). -/

namespace Sys2Proof.Machine

/-- The ALU with intermediate results held as unbounded integers. -/
def aluExact (k : AluOp) (x y : Nat) : AluResult :=
  match k with
  | .add => reencode .noWrite ((x : Int) + (y : Int))
  | .sub => reencodeDifference ((x : Int) - (y : Int))
  | .mul => reencode .noWrite ((x : Int) * (y : Int))
  | .div => if y = 0 then ⟨.divByZero, .noWrite⟩ else reencode .noWrite ((x / y : Nat) : Int)

/-- On block operands every intermediate result lies in `-31..961`, so 11 signed bits hold it. -/
theorem aluAt_eq_aluExact {W : Nat} (k : AluOp) {x y : Nat} (hW : 11 ≤ W) (hx : x ≤ 31) (hy : y ≤ 31) :
    aluAt W k x y = aluExact k x y := by
  cases k with
  | add => rw [aluAt, aluExact, aluHold_of_fits hW (by omega) (by omega)]
  | sub => rw [aluAt, aluExact, aluHold_of_fits hW (by omega) (by omega)]
  | mul =>
    have hxy : x * y ≤ 31 * 31 := Nat.mul_le_mul hx hy
    rw [aluAt, aluExact, ← Nat.cast_mul, aluHold_of_fits hW (by omega) (by omega)]
  | div =>
    have hq : x / y ≤ x := Nat.div_le_self x y
    have h0 : (0 : Int) ≤ ((x / y : Nat) : Int) := Int.natCast_nonneg _
    rw [aluAt, aluExact, aluHold_of_fits hW (by omega) (by omega)]

theorem alu_eq_aluExact (k : AluOp) {x y : Nat} (hx : x ≤ 31) (hy : y ≤ 31) : alu k x y = aluExact k x y :=
  aluAt_eq_aluExact k (by decide) hx hy

/-- Settles O43: both widths compute the ALU on the integers. -/
theorem anyAluWidthFromElevenAgrees : Obligations.AnyAluWidthFromElevenAgrees := by
  intro W k x y hW hx hy
  rw [aluAt_eq_aluExact k hW hx hy, alu_eq_aluExact k hx hy]

end Sys2Proof.Machine
end

section
/-! PROOFS. What the decoder has read when it answers an error, and when it asks for the follow-up address
(40_control.md R58). -/

namespace Sys2Proof

theorem readField_eq_error_iff {n : Nat} {used : Bool} {f g : TokenField} {t : Tok n} :
    readField used f t = .error g ↔ used = true ∧ t = .malformed ∧ g = f := by
  cases used <;> cases t <;> simp [eq_comm]

theorem readField_true_eq_ok_iff {n : Nat} {f : TokenField} {t : Tok n} {b : BitVec n} :
    readField true f t = .ok b ↔ t = .bits b := by
  cases t <;> simp

/-- Everything that a rejected bundle says: the field named is one that the opcode uses, it is malformed, and the
fields before it were read. -/
theorem decode_error_cases {inp : StepInput} {f : TokenField} (h : decode inp = .error f) :
    (inp.op = .malformed ∧ f = .opcode) ∨
      ∃ o, inp.op = .bits o ∧
        (((opclass o).usesA = true ∧ inp.a = .malformed ∧ f = .address) ∨
          ∃ a, readField (opclass o).usesA .address inp.a = .ok a ∧
            (((opclass o).usesImm = true ∧ inp.imm = .malformed ∧ f = .operand) ∨
              ((opclass o).usesFa = true ∧ inp.fa = .malformed ∧ f = .followUp))) := by
  unfold decode at h
  split at h
  · cases h
    exact .inl ⟨‹_›, rfl⟩
  · refine .inr ⟨_, ‹_›, ?_⟩
    split at h
    · cases h
      exact .inl (readField_eq_error_iff.mp ‹_›)
    · refine .inr ⟨_, ‹_›, ?_⟩
      split at h
      · cases h
        exact .inl (readField_eq_error_iff.mp ‹_›)
      · split at h
        · cases h
          exact .inr (readField_eq_error_iff.mp ‹_›)
        · cases h

theorem usesFa_iff (k : OpClass) : k.usesFa = true ↔ k = .compareTwo ∨ k = .clearOne := by
  cases k <;> simp [OpClass.usesFa]

/-- A class that takes a follow-up token takes a primary address (30_encoding.md R53). -/
theorem usesA_of_usesFa {k : OpClass} (h : k.usesFa = true) : k.usesA = true := by
  obtain rfl | rfl := (usesFa_iff k).mp h <;> rfl

/-- A class that takes a follow-up token takes no operand (30_encoding.md R53). -/
theorem usesImm_of_usesFa {k : OpClass} (h : k.usesFa = true) : k.usesImm = false := by
  obtain rfl | rfl := (usesFa_iff k).mp h <;> rfl

/-- The opcode takes a follow-up token and the primary address has passed validation. -/
def AsksForFollowUp (inp : StepInput) : Prop :=
  ∃ o a, inp.op = .bits o ∧ (opclass o).usesFa = true ∧ inp.a = .bits a

theorem asksForFollowUp_of_decode_error {inp : StepInput} {f : TokenField} (h : decode inp = .error f) :
    AsksForFollowUp inp ↔ f = .followUp := by
  constructor
  · rintro ⟨o, a, hop, hfa, ha⟩
    obtain ⟨hop', -⟩ | ⟨o', hop', ⟨-, ha', -⟩ | ⟨-, -, ⟨himm, -⟩ | ⟨-, -, rfl⟩⟩⟩ := decode_error_cases h
    · simp [hop] at hop'
    · simp [ha] at ha'
    · obtain rfl : o = o' := by simpa [hop] using hop'
      simp [usesImm_of_usesFa hfa] at himm
    · rfl
  · rintro rfl
    obtain ⟨-, hf⟩ | ⟨o, hop, ⟨-, -, hf⟩ | ⟨a, ha, ⟨-, -, hf⟩ | ⟨hfa, -, -⟩⟩⟩ := decode_error_cases h
    · cases hf
    · cases hf
    · cases hf
    · rw [usesA_of_usesFa hfa, readField_true_eq_ok_iff] at ha
      exact ⟨o, a, hop, hfa, ha⟩

theorem asksForFollowUp_of_decode_ok {inp : StepInput} {i : Instr} (h : decode inp = .ok i) :
    AsksForFollowUp inp ↔ i.opClass.usesFa = true := by
  obtain ⟨o, a, -, -, hop, hk, -, ha, -, -⟩ := decode_ok_cases h
  constructor
  · rintro ⟨o', -, hop', hfa, -⟩
    obtain rfl : o = o' := by simpa [hop] using hop'
    rwa [← hk]
  · intro hfa
    rw [← hk] at hfa
    rw [usesA_of_usesFa hfa, readField_true_eq_ok_iff] at ha
    exact ⟨o, a, hop, hfa, ha⟩

end Sys2Proof
end

section
/-! PROOFS. Every instruction in two halves: the state it leaves, and the one report appended to the log. -/

namespace Sys2Proof.Machine

/-- What an ALU operation returns on the word at `a` and the immediate (42_alu.md R67). -/
def aluResult (k : AluOp) (a : Idx) (imm : Word) (s : State) : AluResult := alu k (s.memOperand a) (immOperand imm)

/-- The state that an instruction leaves, before its report is appended. -/
def writeBack (i : Instr) (s : State) : State :=
  match i with
  | .halt => s.halt
  | .load a => s.writeAcc (s.readM a)
  | .store a imm => s.writeM a imm
  | .add a imm => s.applyAction a (aluResult .add a imm s).action
  | .sub a imm => s.applyAction a (aluResult .sub a imm s).action
  | .mul a imm => s.applyAction a (aluResult .mul a imm s).action
  | .div a imm => s.applyAction a (aluResult .div a imm s).action
  | .compareTwo _ _ => s
  | .compareAll => s
  | .clearOne _ fa => s.writeM fa 0#5
  | .clearAll => s.clearM
  | .invalid _ => s

/-- The report of an instruction; what it renders is taken from the state that `writeBack` leaves. -/
def report (i : Instr) (s : State) : StepOut :=
  match i with
  | .halt => haltOut (writeBack i s).M
  | .load _ => okOut [.renderAcc (writeBack i s).acc] false
  | .store _ _ => okOut [.renderMem (writeBack i s).M] false
  | .add a imm => aluOut .add (aluResult .add a imm s).status (writeBack i s).M
  | .sub a imm => aluOut .sub (aluResult .sub a imm s).status (writeBack i s).M
  | .mul a imm => aluOut .mul (aluResult .mul a imm s).status (writeBack i s).M
  | .div a imm => aluOut .div (aluResult .div a imm s).status (writeBack i s).M
  | .compareTwo a fa => okOut [.cmp (relation (s.memOperand a) (s.memOperand fa))] true
  | .compareAll => okOut [.maxMin (word (scan s.memValues).1) (word (scan s.memValues).2)] false
  | .clearOne _ fa => okOut [.cleared fa, .renderMem (writeBack i s).M] true
  | .clearAll => okOut [.clearedAll, .renderMem (writeBack i s).M] false
  | .invalid _ => errorOut .unknownOpcode

/-- The two halves are the meaning of every instruction. -/
theorem exec_eq (i : Instr) (s : State) : exec i s = .next ((writeBack i s).finish (report i s)) := by
  cases i <;> rfl

theorem exec_eq_next_iff {i : Instr} {s t : State} :
    exec i s = .next t ↔ t = (writeBack i s).finish (report i s) := by
  rw [exec_eq, Host.Outcome.next.injEq, eq_comm]

/-! ### The state that an instruction leaves -/

/-- Only HALT writes `RUN` (10_state.md R17). -/
theorem writeBack_run (i : Instr) (s : State) : (writeBack i s).run = if i = .halt then .halted else s.run := by
  cases i <;> simp [writeBack]

theorem writeBack_run_of_ne {i : Instr} (s : State) (h : i ≠ .halt) : (writeBack i s).run = s.run := by
  rw [writeBack_run, if_neg h]

/-- Only LOAD writes `ACC` (10_state.md R16). -/
theorem writeBack_acc_of_ne {i : Instr} (s : State) (h : ∀ a, i ≠ .load a) : (writeBack i s).acc = s.acc := by
  cases i with
  | load a => exact absurd rfl (h a)
  | _ => simp [writeBack]

@[simp] theorem writeBack_input (i : Instr) (s : State) : (writeBack i s).input = s.input := by
  cases i <;> simp [writeBack]

@[simp] theorem writeBack_outputs (i : Instr) (s : State) : (writeBack i s).outputs = s.outputs := by
  cases i <;> simp [writeBack]

/-- A word that 10_state.md R14 does not let the instruction write reads as before. -/
theorem readM_writeBack_of_not_mayWrite {i : Instr} {b : Idx} (s : State) (h : mayWriteWord i b = false) :
    (writeBack i s).readM b = s.readM b := by
  cases i with
  | store | clearOne => exact readM_writeM_other s _ (by simpa [mayWriteWord] using h)
  | add | sub | mul | div => exact readM_applyAction_other s _ (by simpa [mayWriteWord] using h)
  | clearAll => cases h
  | _ => rfl

/-! ### The report -/

@[simp] theorem mem_aluErrorEvents {k : AluOp} {st : Status} {e : Event} :
    e ∈ aluErrorEvents k st ↔ st = k.failure ∧ e = .error k.failureKind := by
  unfold aluErrorEvents
  split <;> simp [*]

/-- Only HALT returns `Halt` (10_state.md R26). -/
theorem report_outcome (i : Instr) (s : State) : (report i s).outcome = if i = .halt then .halts else .continues := by
  cases i <;> rfl

theorem report_outcome_eq_halts_iff {i : Instr} {s : State} : (report i s).outcome = .halts ↔ i = .halt := by
  simp [report_outcome]

/-- The follow-up address is asked for exactly by the instructions that take one. -/
theorem report_faReq (i : Instr) (s : State) : (report i s).faReq = i.opClass.usesFa := by
  cases i <;> rfl

/-- A rendered register file is the one after the writes (20_memory.md R35). -/
theorem eq_of_renderMem_mem_report {i : Instr} {s : State} {m : RegFile}
    (h : Event.renderMem m ∈ (report i s).events) : m = (writeBack i s).M := by
  cases i with
  | load | compareTwo | compareAll | invalid => simp [report] at h
  | _ => simpa [report, haltOut, aluOut] using h

/-- A rendered accumulator is the one after the write. -/
theorem eq_of_renderAcc_mem_report {i : Instr} {s : State} {w : Word}
    (h : Event.renderAcc w ∈ (report i s).events) : w = (writeBack i s).acc := by
  cases i with
  | load => simpa [report] using h
  | _ => simp [report, haltOut, aluOut] at h

/-- An instruction that changes the register file renders it. -/
theorem renderMem_mem_report {i : Instr} {s : State} (h : (writeBack i s).M ≠ s.M) :
    Event.renderMem (writeBack i s).M ∈ (report i s).events := by
  cases i with
  | halt | load | compareTwo | compareAll | invalid => exact absurd rfl h
  | _ => simp [report, aluOut]

/-- An instruction that changes `ACC` renders it. -/
theorem renderAcc_mem_report {i : Instr} {s : State} (h : (writeBack i s).acc ≠ s.acc) :
    Event.renderAcc (writeBack i s).acc ∈ (report i s).events := by
  cases i with
  | load => simp [report]
  | _ => simp [writeBack] at h

/-! ### What the two halves read -/

theorem memOperand_congr {s s' : State} (hM : s'.M = s.M) (a : Idx) : s'.memOperand a = s.memOperand a := by
  rw [State.memOperand, readM_congr hM, State.memOperand]

theorem aluResult_congr {s s' : State} (hM : s'.M = s.M) (k : AluOp) (a : Idx) (imm : Word) :
    aluResult k a imm s' = aluResult k a imm s := by
  rw [aluResult, memOperand_congr hM, aluResult]

theorem applyAction_M_congr {s s' : State} (hM : s'.M = s.M) (a : Idx) (act : AluAction) :
    (s'.applyAction a act).M = (s.applyAction a act).M := by
  cases act <;> simp [State.applyAction, hM]

/-- The register file that an instruction leaves is a function of the one it finds. -/
theorem writeBack_M_congr {s s' : State} (hM : s'.M = s.M) (i : Instr) : (writeBack i s').M = (writeBack i s).M := by
  cases i with
  | store | clearOne => simp [writeBack, hM]
  | add | sub | mul | div => simp only [writeBack, aluResult_congr hM, applyAction_M_congr hM]
  | clearAll => rfl
  | _ => exact hM

theorem writeBack_acc_congr {s s' : State} (hM : s'.M = s.M) (hacc : s'.acc = s.acc) (i : Instr) :
    (writeBack i s').acc = (writeBack i s).acc := by
  cases i with
  | load a => exact readM_congr hM a
  | _ => simpa [writeBack] using hacc

/-- The report of an instruction is a function of the register file it finds. -/
theorem report_congr {s s' : State} (hM : s'.M = s.M) (i : Instr) : report i s' = report i s := by
  cases i with
  | load a => exact congrArg (fun w => okOut [.renderAcc w] false) (readM_congr hM a)
  | compareTwo => simp only [report, memOperand_congr hM]
  | compareAll => simp only [report, State.memValues, hM]
  | invalid => rfl
  | _ => simp only [report, writeBack_M_congr hM, aluResult_congr hM]

end Sys2Proof.Machine
end

section
/-! PROOFS. What an instruction keeps, reads and reports (10_state.md R14, R16, R17, R20, R21, R25). -/

namespace Sys2Proof.Machine

/-- Settles O38: the frame of `writeBack`, and one report appended. -/
theorem instructionsKeepWhatTheyDoNotWrite : Obligations.InstructionsKeepWhatTheyDoNotWrite := by
  intro i s t h
  obtain rfl := exec_eq_next_iff.mp h
  exact ⟨fun _ hb => readM_writeBack_of_not_mayWrite s hb, writeBack_acc_of_ne s, writeBack_run_of_ne s,
    by simp, report i s, by simp⟩

/-- Settles O40: the words an instruction leaves and its report are functions of the words it finds, and RUN does
not depend on `ACC`. -/
theorem accIsNeverAnOperand : Obligations.AccIsNeverAnOperand := by
  intro i s t v h
  obtain rfl := exec_eq_next_iff.mp h
  have hM : ({ s with acc := v } : State).M = s.M := rfl
  exact ⟨_, exec_eq _ _, writeBack_M_congr hM i, by simp [writeBack_run], by simp [report_congr hM], by simp⟩

/-- Settles O41: neither the state an instruction leaves nor its report is a function of the log. -/
theorem earlierReportsAreNeverRead : Obligations.EarlierReportsAreNeverRead := by
  intro i s t outs h
  obtain rfl := exec_eq_next_iff.mp h
  have hM : ({ s with outputs := outs } : State).M = s.M := rfl
  exact ⟨_, report i s, exec_eq _ _, writeBack_M_congr hM i, writeBack_acc_congr hM rfl i, by simp [writeBack_run],
    by simp, by simp [report_congr hM]⟩

/-- Settles O50: a report renders the state that `writeBack` leaves, and renders what it changed. -/
theorem rendersShowTheStateAfterTheStep : Obligations.RendersShowTheStateAfterTheStep := by
  intro i s t h
  obtain rfl := exec_eq_next_iff.mp h
  exact ⟨report i s, by simp, fun _ => eq_of_renderMem_mem_report, fun _ => eq_of_renderAcc_mem_report,
    renderMem_mem_report, renderAcc_mem_report⟩

end Sys2Proof.Machine
end

section
/-! PROOFS. What every step does to `RUN`, `ACC`, `fa_req` and the outcome (10_state.md R16, R17, R23, R26). -/

namespace Sys2Proof.Machine

/-- A step that answers a next state took `rst` or a presented instruction in a Running block. -/
theorem step_rst_or_presents {s t : State} (h : step s = .next t) :
    (∃ rest, s.input = .rst :: rest ∧ t = resetWith rest) ∨ (s.run = .running ∧ ∃ inp rest, Presents s inp rest) := by
  obtain hrst | ⟨act, rest, inp, hin, hb, hr, -⟩ := step_cases h
  · exact .inl hrst
  · exact .inr ⟨hr, inp, rest, act, hin, hb⟩

/-- `rst` presents no instruction. -/
theorem not_presents_of_rst {s : State} {inp : StepInput} {rest rest' : List Stimulus} (h : s.input = .rst :: rest) :
    ¬ Presents s inp rest' := by
  rintro ⟨act, hin, hb⟩
  obtain ⟨rfl, -⟩ : Stimulus.rst = act ∧ rest = rest' := by simpa [h] using hin
  cases hb

/-- A step on a presented instruction reports the malformed field that the decoder met, or executes what it decoded
to, on the state without the host's act. -/
theorem step_presents_cases {s t : State} {inp : StepInput} {rest : List Stimulus} (hp : Presents s inp rest)
    (h : step s = .next t) :
    (∃ f, decode inp = .error f ∧ t = ({ s with input := rest } : State).raise (.malformedToken f)) ∨
      ∃ i, decode inp = .ok i ∧ exec i { s with input := rest } = .next t := by
  obtain ⟨rest', hrst, -⟩ | ⟨act', rest', inp', hin', hb', -, hdone⟩ := step_cases h
  · exact absurd hp (not_presents_of_rst hrst)
  · obtain ⟨act, hin, hb⟩ := hp
    obtain ⟨rfl, rfl⟩ : act' = act ∧ rest' = rest := by simpa [hin'] using hin
    obtain rfl : inp' = inp := by simpa [hb'] using hb
    exact hdone

theorem stepOutcome_continues_iff (o : StepOutcome) : o = .continues ↔ o ≠ .halts := by
  cases o <;> simp

/-- Settles O22: what `writeBack` does to `RUN`, and that a malformed field and `rst` do not halt. -/
theorem onlyHaltAndResetWriteRun : Obligations.OnlyHaltAndResetWriteRun := by
  refine ⟨fun s t hr h ht => ?_, fun s t hr h => ?_, fun s t i h => ?_, rfl⟩
  · obtain ⟨rest, -, rfl⟩ | ⟨-, inp, rest, hp⟩ := step_rst_or_presents h
    · cases ht
    · refine ⟨inp, rest, hp, ?_⟩
      obtain ⟨f, -, rfl⟩ | ⟨i, hd, he⟩ := step_presents_cases hp h
      · simp [hr] at ht
      · obtain rfl := exec_eq_next_iff.mp he
        obtain rfl : i = .halt := by simpa [writeBack_run, hr] using ht
        exact hd
  · obtain ⟨rest, hin, rfl⟩ | ⟨hr', -⟩ := step_rst_or_presents h
    · exact ⟨⟨rest, hin⟩, rfl⟩
    · simp [hr] at hr'
  · obtain rfl := exec_eq_next_iff.mp h
    by_cases hi : i = .halt
    · exact .inr ⟨hi, by simp [writeBack_run, hi]⟩
    · exact .inl (writeBack_run_of_ne s hi)

/-- Settles O23: `writeBack` keeps `ACC` for every instruction but LOAD, and a malformed field keeps it. -/
theorem onlyLoadAndResetWriteAcc : Obligations.OnlyLoadAndResetWriteAcc := by
  intro s t h hacc
  obtain ⟨rest, hin, -⟩ | ⟨-, inp, rest, hp⟩ := step_rst_or_presents h
  · exact .inl ⟨rest, hin⟩
  · obtain ⟨f, -, rfl⟩ | ⟨i, hd, he⟩ := step_presents_cases hp h
    · exact absurd rfl hacc
    · obtain rfl := exec_eq_next_iff.mp he
      obtain ⟨a, rfl⟩ : ∃ a, i = .load a := by
        by_contra hno
        exact hacc (writeBack_acc_of_ne _ fun a ha => hno ⟨a, ha⟩)
      exact .inr ⟨inp, rest, a, hp, hd⟩

/-- Settles O24: the report of a rejected bundle says `fa_req` when the rejected field is the follow-up token, the
report of an instruction when its class takes one; the decoder's cases tie both to the opcode and the address. -/
theorem followUpIsRequestedOnlyAfterTheAddress : Obligations.FollowUpIsRequestedOnlyAfterTheAddress := by
  intro s t inp rest _ hp h
  simp only [← usesFa_iff]
  obtain ⟨f, hd, rfl⟩ | ⟨i, hd, he⟩ := step_presents_cases hp h
  · refine ⟨errorOut (.malformedToken f), by simp, Iff.trans ?_ (asksForFollowUp_of_decode_error hd).symm⟩
    simp [errorFaReq]
  · obtain rfl := exec_eq_next_iff.mp he
    refine ⟨report i { s with input := rest }, by simp, ?_⟩
    rw [report_faReq]
    exact (asksForFollowUp_of_decode_ok hd).symm

/-- Settles O49: the outcome of an instruction's report is HALT's exactly for HALT, and a malformed field's is
`Continue`. -/
theorem onlyHaltReturnsHalt : Obligations.OnlyHaltReturnsHalt := by
  intro s t inp rest _ hp h
  simp only [stepOutcome_continues_iff, ne_eq, not_iff_not, and_self]
  obtain ⟨f, hd, rfl⟩ | ⟨i, hd, he⟩ := step_presents_cases hp h
  · exact ⟨errorOut (.malformedToken f), by simp, by simp [hd]⟩
  · obtain rfl := exec_eq_next_iff.mp he
    exact ⟨report i { s with input := rest }, by simp, by simp [hd, report_outcome_eq_halts_iff]⟩

end Sys2Proof.Machine
end

section
/-! PROOFS. Two invariants of the step: `RUN` follows the log (10_state.md R17, R26), and the log shows the state
(10_state.md R16, R25). -/

namespace Sys2Proof.Machine

/-! ### `RUN` follows the log -/

/-- A step on a presented instruction appends one report, whose outcome is `Halt` exactly when the block is Halted
after it. -/
theorem step_presents_run_iff {s t : State} {inp : StepInput} {rest : List Stimulus} (hr : s.run = .running)
    (hp : Presents s inp rest) (h : step s = .next t) :
    ∃ o, t.outputs = s.outputs ++ [o] ∧ (t.run = .halted ↔ o.outcome = .halts) := by
  obtain ⟨f, -, rfl⟩ | ⟨i, -, he⟩ := step_presents_cases hp h
  · exact ⟨errorOut (.malformedToken f), by simp, by simp [hr]⟩
  · obtain rfl := exec_eq_next_iff.mp he
    exact ⟨report i { s with input := rest }, by simp, by simp [writeBack_run, report_outcome, hr]⟩

theorem runMatchesLog_resetWith (rest : List Stimulus) : RunMatchesLog (resetWith rest) := by
  simp [RunMatchesLog]

/-- While the block is Running no report has the outcome `Halt`. -/
theorem outcome_continues_of_running {s : State} (hs : RunMatchesLog s) (hr : s.run = .running) :
    ∀ o ∈ s.outputs, o.outcome = .continues := by
  obtain ⟨hinit, hlast⟩ := hs
  intro o ho
  rw [stepOutcome_continues_iff]
  intro hhalts
  obtain ⟨outs, z, hout⟩ : ∃ outs z, s.outputs = outs ++ [z] :=
    (List.eq_nil_or_concat' s.outputs).resolve_left (List.ne_nil_of_mem ho)
  simp only [hout, List.dropLast_concat, List.mem_append, List.mem_singleton] at hinit ho
  obtain ho | rfl := ho
  · simp [hinit o ho] at hhalts
  · have : s.run = .halted := hlast.mpr ⟨o, by simp [hout], hhalts⟩
    simp [hr] at this

/-- Settles O53: a Running block's log holds no `Halt`, so after one more report only that one can. -/
theorem stepKeepsRunMatchesLog : Obligations.StepKeepsRunMatchesLog := by
  intro s t hs h
  obtain ⟨rest, -, rfl⟩ | ⟨hr, inp, rest, hp⟩ := step_rst_or_presents h
  · exact runMatchesLog_resetWith rest
  · obtain ⟨o, hout, hrun⟩ := step_presents_run_iff hr hp h
    constructor
    · simpa [hout] using outcome_continues_of_running hs hr
    · simpa [hout] using hrun

/-! ### The log shows the state -/

/-- Events that render only the register file `m` and the accumulator `w`, and render each of them that the host
does not know yet, leave the host with `m` and `w`. -/
theorem foldl_seeEvent_eq {m : RegFile} {w : Word} (es : List Event) (v : RegFile × Word)
    (hmem : ∀ m', Event.renderMem m' ∈ es → m' = m) (hacc : ∀ w', Event.renderAcc w' ∈ es → w' = w)
    (hmem' : m ≠ v.1 → Event.renderMem m ∈ es) (hacc' : w ≠ v.2 → Event.renderAcc w ∈ es) :
    es.foldl seeEvent v = (m, w) := by
  induction es generalizing v with
  | nil =>
    obtain ⟨hm, hw⟩ : m = v.1 ∧ w = v.2 := by simpa using And.intro hmem' hacc'
    rw [List.foldl_nil, hm, hw]
  | cons e es ih =>
    refine ih (seeEvent v e) (fun m' h => hmem m' (.tail e h)) (fun w' h => hacc w' (.tail e h)) ?_ ?_
    · cases e with
      | renderMem m' => simp [seeEvent, hmem m' (.head es)]
      | _ => simpa [seeEvent] using hmem'
    · cases e with
      | renderAcc w' => simp [seeEvent, hacc w' (.head es)]
      | _ => simpa [seeEvent] using hacc'

@[simp] theorem seen_concat (outs : List StepOut) (o : StepOut) :
    seen (outs ++ [o]) = o.events.foldl seeEvent (seen outs) := by
  simp [seen]

theorem logShowsState_resetWith (rest : List Stimulus) : LogShowsState (resetWith rest) := rfl

theorem raise_keeps_logShowsState {s : State} (hs : LogShowsState s) (k : ErrorKind) : LogShowsState (s.raise k) := by
  simpa [LogShowsState, seeEvent] using hs

/-- An instruction renders all it writes, so a host that knew `M` and `ACC` before it knows them after it. -/
theorem exec_keeps_logShowsState {i : Instr} {s t : State} (hs : LogShowsState s) (h : exec i s = .next t) :
    LogShowsState t := by
  obtain ⟨o, hout, hmem, hacc, hmem', hacc'⟩ := rendersShowTheStateAfterTheStep i s t h
  rw [LogShowsState, hout, seen_concat, hs]
  exact foldl_seeEvent_eq o.events (s.M, s.acc) hmem hacc hmem' hacc'

/-- Settles O54: `rst` starts again from the reset values, an error event shows and changes nothing, and an
instruction renders all it writes. -/
theorem stepKeepsLogShowsState : Obligations.StepKeepsLogShowsState := by
  intro s t hs h
  obtain ⟨rest, -, rfl⟩ | ⟨-, inp, rest, hp⟩ := step_rst_or_presents h
  · exact logShowsState_resetWith rest
  · have hs' : LogShowsState { s with input := rest } := hs
    obtain ⟨f, -, rfl⟩ | ⟨i, -, he⟩ := step_presents_cases hp h
    · exact raise_keeps_logShowsState hs' _
    · exact exec_keeps_logShowsState hs' he

end Sys2Proof.Machine
end

section
/-! PROOFS. What a STORE leaves is what a later LOAD reads (20_memory.md R35, 70_reset_and_hazards.md R99). -/

namespace Sys2Proof.Machine

/-- STORE leaves its immediate in the addressed word (41_transfer.md R66). -/
theorem readM_of_exec_store {a : Idx} {w : Word} {s t : State} (h : exec (.store a w) s = .next t) :
    t.readM a = w := by
  obtain rfl := exec_eq_next_iff.mp h
  rw [readM_finish]
  exact readM_writeM_same s a w

/-- LOAD always answers, with the addressed word in `ACC` (41_transfer.md R65). -/
theorem exec_load_acc (a : Idx) (s : State) : ∃ t, exec (.load a) s = .next t ∧ t.acc = s.readM a :=
  ⟨_, exec_eq _ _, by rw [finish_acc]; exact writeAcc_acc s _⟩

/-- Settles O39: LOAD reads the word, the instruction between keeps it, and STORE left it. -/
theorem loadSeesTheLastStore : Obligations.LoadSeesTheLastStore := by
  intro s t u a w i hstore hi hframe
  obtain ⟨v, hload, hacc⟩ := exec_load_acc a u
  obtain ⟨hkeep, -⟩ := instructionsKeepWhatTheyDoNotWrite i t u hi
  refine ⟨v, hload, ?_⟩
  calc v.acc = u.readM a := hacc
    _ = t.readM a := hkeep a hframe
    _ = w := readM_of_exec_store hstore

end Sys2Proof.Machine
end

section
/-! PROOFS. Decoding is the inverse of encoding (30_encoding.md R43, R50, R53, R54, R55). -/

namespace Sys2Proof

/-! ### Reading fields -/

/-- A well-formed field is delivered where it is used, and is the zero placeholder where it is not. -/
theorem readField_bits_eq_ite {n : Nat} (used : Bool) (f : TokenField) (b : BitVec n) :
    readField used f (.bits b) = .ok (if used then b else 0#n) := by
  cases used <;> rfl

/-- A field that the encoder writes, with zero where it is not used, reads back. -/
theorem readField_placeholder {n : Nat} (used : Bool) (f : TokenField) (b : BitVec n) :
    readField used f (.bits (if used then b else 0#n)) = .ok (if used then b else 0#n) := by
  cases used <;> rfl

/-- The same for the follow-up token, which an encoded instruction has only where it is used. -/
theorem readField_ofFollowUp (used : Bool) (f : TokenField) (fa : Idx) :
    readField used f (Tok.ofFollowUp (if used then some fa else none)) = .ok (if used then fa else 0#3) := by
  cases used <;> rfl

/-- The value of a field that is not used does not matter. -/
theorem readField_congr {n : Nat} {used : Bool} {f : TokenField} {t t' : Tok n} (h : used = true → t = t') :
    readField used f t = readField used f t' := by
  cases used with
  | false => rfl
  | true => rw [h rfl]

/-- The converse of `decode_ok_cases`: when every field is read, the decoder assembles the instruction. -/
theorem decode_eq_ok {inp : StepInput} {o : Opcode} {a : Idx} {imm : Word} {fa : Idx} (hop : inp.op = .bits o)
    (ha : readField (opclass o).usesA .address inp.a = .ok a)
    (himm : readField (opclass o).usesImm .operand inp.imm = .ok imm)
    (hfa : readField (opclass o).usesFa .followUp inp.fa = .ok fa) :
    decode inp = .ok (assemble (opclass o) o a imm fa) := by
  simp only [decode, hop, ha, himm, hfa]

/-- The decoder does not distinguish bundles that agree on what it reads. -/
theorem decode_congr {inp inp' : StepInput} (h : Machine.AgreeOnReadFields inp inp') : decode inp = decode inp' := by
  obtain ⟨hop, hread⟩ := h
  cases ho : inp.op with
  | malformed => simp only [decode, ← hop, ho]
  | bits o =>
    obtain ⟨ha, himm, hfa⟩ := hread o ho
    simp only [decode, ← hop, ho, readField_congr ha, readField_congr himm, readField_congr hfa]

/-! ### Assembling and encoding -/

/-- Assembling looks at no field that the class does not use. -/
theorem assemble_unused_zero (k : OpClass) (o : Opcode) (a : Idx) (imm : Word) (fa : Idx) :
    assemble k o (if k.usesA then a else 0#3) (if k.usesImm then imm else 0#5) (if k.usesFa then fa else 0#3) =
      assemble k o a imm fa := by
  cases k <;> rfl

/-- Every well-formed instruction is what its opcode assembles from some fields. -/
theorem exists_eq_assemble {i : Instr} (h : i.wellFormed = true) :
    ∃ o a imm fa, i = assemble (opclass o) o a imm fa := by
  refine ⟨opcodeOf i, ?_⟩
  rw [opclass_opcodeOf h]
  cases i with
  | load a => exact ⟨a, 0#5, 0#3, rfl⟩
  | store a imm | add a imm | sub a imm | mul a imm | div a imm => exact ⟨a, imm, 0#3, rfl⟩
  | compareTwo a fa | clearOne a fa => exact ⟨a, 0#5, fa, rfl⟩
  | halt | compareAll | clearAll | invalid => exact ⟨0#3, 0#5, 0#3, rfl⟩

/-- The opcode that selects a class is the opcode of what is assembled from that class (30_encoding.md R47). -/
theorem opcodeOf_assemble (o : Opcode) (a : Idx) (imm : Word) (fa : Idx) :
    opcodeOf (assemble (opclass o) o a imm fa) = o := by
  unfold opclass
  split <;> rfl

theorem wellFormed_assemble (o : Opcode) (a : Idx) (imm : Word) (fa : Idx) :
    (assemble (opclass o) o a imm fa).wellFormed = true := by
  cases hk : opclass o with
  | invalid => exact (wellFormed_invalid_iff o).mpr hk
  | _ => rfl

/-- The encoder's word and follow-up token, field by field: used fields as they are, unused ones zero or absent
(30_encoding.md R50, R55). -/
theorem encode_assemble (k : OpClass) (o : Opcode) (a : Idx) (imm : Word) (fa : Idx) :
    encode (assemble k o a imm fa) =
      ⟨packWord (opcodeOf (assemble k o a imm fa)) (if k.usesA then a else 0#3) (if k.usesImm then imm else 0#5),
        if k.usesFa then some fa else none⟩ := by
  cases k <;> rfl

/-- The decoder reads from an encoding the fields that its class uses, and assembles the same instruction. -/
theorem decode_encode_assemble (o : Opcode) (a : Idx) (imm : Word) (fa : Idx) :
    decode (StepInput.ofEncoded (encode (assemble (opclass o) o a imm fa))) =
      .ok (assemble (opclass o) o a imm fa) := by
  rw [encode_assemble, opcodeOf_assemble, StepInput.ofEncoded, packWord, ofWord_append,
    ← assemble_unused_zero _ o a imm fa]
  exact decode_eq_ok rfl (readField_placeholder ..) (readField_placeholder ..) (readField_ofFollowUp ..)

/-- Settles O3: a well-formed instruction is what its opcode assembles, and decoding the encoding of that gives it
back. -/
theorem decodeOfEncodeIsTheInstruction : Obligations.DecodeOfEncodeIsTheInstruction := by
  intro i hwf
  obtain ⟨o, a, imm, fa, rfl⟩ := exists_eq_assemble hwf
  exact decode_encode_assemble o a imm fa

/-- A bundle whose fields are all well formed decodes to what its opcode assembles. -/
theorem decode_bits (o : Opcode) (a : Idx) (imm : Word) (fa : Idx) :
    decode ⟨.bits o, .bits a, .bits imm, .bits fa⟩ = .ok (assemble (opclass o) o a imm fa) := by
  rw [← assemble_unused_zero _ o a imm fa]
  exact decode_eq_ok rfl (readField_bits_eq_ite ..) (readField_bits_eq_ite ..) (readField_bits_eq_ite ..)

theorem wellFormed_of_decode_ok {inp : StepInput} {i : Instr} (h : decode inp = .ok i) : i.wellFormed = true := by
  obtain ⟨o, a, imm, fa, -, -, rfl, -⟩ := decode_ok_cases h
  exact wellFormed_assemble o a imm fa

/-- Settles O5: a word decodes to what its opcode assembles from its fields, which encodes with the unread fields at
zero; whatever a bundle decodes to is assembled from its opcode. -/
theorem everyWordDecodesAndEncodesBack : Obligations.EveryWordDecodesAndEncodesBack := by
  refine ⟨fun I fa => ⟨_, decode_bits (opField I) (aField I) (immField I) fa, wellFormed_assemble .., ?_, ?_⟩,
    fun inp => ?_⟩
  · exact opClass_assemble ..
  · rw [opClass_assemble, encode_assemble, opcodeOf_assemble]
  · cases hd : decode inp with
    | error f => exact .inl ⟨f, rfl⟩
    | ok i => exact .inr ⟨i, rfl, wellFormed_of_decode_ok hd⟩

end Sys2Proof
end

section
/-! PROOFS. What a step on a presented instruction takes from the host's act (30_encoding.md R38, R39, R50). -/

namespace Sys2Proof.Machine

/-- A presented bundle reaches `acceptInstr`, as a bundle or as text. -/
theorem fetch_of_presents {s : State} {inp : StepInput} {rest : List Stimulus} (hp : Presents s inp rest) :
    fetch s = acceptInstr s inp rest := by
  obtain ⟨act, hin, hb⟩ := hp
  simp only [fetch, hin, hb]

/-- A Running block rejects a bundle under the name of the field that the decoder met. -/
theorem step_of_decode_error {s : State} {inp : StepInput} {rest : List Stimulus} {f : TokenField}
    (hr : s.run = .running) (hp : Presents s inp rest) (hd : decode inp = .error f) :
    step s = .next (({ s with input := rest } : State).raise (.malformedToken f)) := by
  simp only [step, fetch_of_presents hp, acceptInstr, hr, hd]

/-- Of the act that presents an instruction, the step depends on what the bundle decodes to and on nothing else. -/
theorem step_congr_of_decode_eq (s : State) {act act' : Stimulus} {inp inp' : StepInput} (rest : List Stimulus)
    (hb : act.bundle? = some inp) (hb' : act'.bundle? = some inp') (hd : decode inp = decode inp') :
    step { s with input := act :: rest } = step { s with input := act' :: rest } := by
  have hf : fetch { s with input := act :: rest } = acceptInstr s inp rest := fetch_of_presents ⟨act, rfl, hb⟩
  have hf' : fetch { s with input := act' :: rest } = acceptInstr s inp' rest := fetch_of_presents ⟨act', rfl, hb'⟩
  rw [step, step, hf, hf', acceptInstr, acceptInstr]
  cases s.run with
  | running => simp only [hd]
  | halted => rfl

/-- The flags after a step are those of the status it reports (42_alu.md R69). -/
theorem flagsAre_finish (s : State) (o : StepOut) : FlagsAre (s.finish o) o.status.ovf o.status.unf o.status.dz :=
  ⟨o.signals, by simp [State.signals?], rfl, rfl, rfl⟩

/-- Settles O7: the step depends on what the bundle decodes to, and that on the fields that are read. -/
theorem unreadFieldsHaveNoEffect : Obligations.UnreadFieldsHaveNoEffect := by
  intro s inp inp' rest hagree
  have hd : decode inp = decode inp' := decode_congr hagree
  exact ⟨hd, step_congr_of_decode_eq s rest rfl rfl hd⟩

/-- Settles O14: text presents the bundle that the front end delivers for it. -/
theorem textRunsAsItsValidatedBundle : Obligations.TextRunsAsItsValidatedBundle :=
  fun s _ rest => step_congr_of_decode_eq s rest rfl rfl rfl

/-- Settles O15: the step raises the malformed field, and `raise` appends one report and keeps the rest. -/
theorem malformedTokenAbandonsTheInstruction : Obligations.MalformedTokenAbandonsTheInstruction := by
  intro s inp rest f hr hp hd
  refine ⟨_, errorOut (.malformedToken f), step_of_decode_error hr hp hd, ?_⟩
  exact ⟨fun b => readM_raise _ _ b, rfl, hr, rfl, rfl, rfl, rfl, rfl, flagsAre_finish _ _⟩

end Sys2Proof.Machine
end

section
/-! PROOFS. The front end and the codec (30_encoding.md R38 to R42). -/

namespace Sys2Proof

/-! ### Validation and the value of a string -/

theorem isBinaryChar_iff (c : Char) : isBinaryChar c = true ↔ c = '0' ∨ c = '1' := by
  simp [isBinaryChar]

theorem validateBinary_iff (t : TokenText) (n : Nat) :
    validateBinary t n = true ↔ t.length = n ∧ ∀ c ∈ t, c = '0' ∨ c = '1' := by
  simp [validateBinary, isBinaryChar_iff]

/-- The bits that the front end delivers have the value of the string: no digit is cut off. -/
theorem toNat_ofNat_toInt (t : TokenText) : (BitVec.ofNat t.length (toInt t)).toNat = toInt t := by
  rw [BitVec.toNat_ofNat, Nat.mod_eq_of_lt (toInt_lt t)]

/-- A valid token is delivered with its value. -/
theorem exists_bits_of_valid {t : TokenText} {n : Nat} (h : validateBinary t n = true) :
    ∃ b, Tok.ofText n t = .bits b ∧ b.toNat = toInt t := by
  obtain ⟨rfl, -⟩ := (validateBinary_iff t n).mp h
  exact ⟨_, tok_ofText_of_valid h, toNat_ofNat_toInt t⟩

/-- The value as the sum that 30_encoding.md R40 writes. -/
theorem toInt_eq_sum (t : TokenText) :
    toInt t = ((List.range t.length).map fun k => if t[k]? = some '1' then 2 ^ (t.length - 1 - k) else 0).sum := by
  induction t with
  | nil => rfl
  | cons c t ih =>
    rw [toInt_cons, List.length_cons, List.range_succ_eq_map, List.map_cons, List.sum_cons, List.map_map, ih]
    congr 2
    · simp
    · apply List.map_congr_left
      intro k _
      simp [Nat.sub_sub, Nat.add_comm]

/-- Settles O9: the check says that all characters are digits, and the front end delivers the value or `Malformed`. -/
theorem frontEndValidatesExactlyBinaryTokens : Obligations.FrontEndValidatesExactlyBinaryTokens := by
  intro t n
  refine ⟨?_, exists_bits_of_valid, tok_ofText_of_invalid⟩
  rw [validateBinary_iff, List.forall_mem_iff_getElem]

/-- Settles O10: the sum by induction on the string, the value of the delivered bits, and the worked values. -/
theorem toIntIsBaseTwo : Obligations.ToIntIsBaseTwo := by
  refine ⟨toInt_eq_sum, fun s n h => ?_, by decide, by decide, by decide, by decide⟩
  obtain ⟨b, hb, hval⟩ := exists_bits_of_valid h
  exact ⟨b, hb, hval.symm⟩

/-! ### Spelling a vector digit by digit -/

theorem getMsbD_cons_zero {n : Nat} (d : Bool) (b : BitVec n) : (BitVec.cons d b).getMsbD 0 = d := by
  rw [← BitVec.msb_eq_getMsbD_zero, BitVec.msb_cons]

theorem getMsbD_cons_succ {n : Nat} (d : Bool) (b : BitVec n) (k : Nat) :
    (BitVec.cons d b).getMsbD (k + 1) = b.getMsbD k := by
  by_cases hk : k < n
  · have hi : n - (k + 1) = n - 1 - k := by omega
    have hne : n - 1 - k ≠ n := by omega
    simp [BitVec.getMsbD, BitVec.getLsbD_cons, hk, hi, hne]
  · simp [BitVec.getMsbD, hk]

/-- The leftmost character is the most significant bit (00_scope.md R6). -/
@[simp] theorem spell_cons {n : Nat} (d : Bool) (b : BitVec n) :
    spell (BitVec.cons d b) = (if d then '1' else '0') :: spell b := by
  simp only [spell, List.range_succ_eq_map, List.map_cons, List.map_map, getMsbD_cons_zero]
  congr 1
  apply List.map_congr_left
  intro k _
  simp only [Function.comp_apply, getMsbD_cons_succ]

theorem spell_zero (n : Nat) : spell 0#n = List.replicate n '0' := by
  simp [spell, List.map_const']

/-- The string of a vector has the vector's value. -/
@[simp] theorem toInt_spell {n : Nat} (b : BitVec n) : toInt (spell b) = b.toNat := by
  induction n with
  | zero => simp [BitVec.of_length_zero, spell]
  | succ n ih =>
    rw [← BitVec.cons_msb_setWidth b, spell_cons, toInt_cons, ih, spell_length, BitVec.toNat_cons']
    cases b.msb <;> simp [Nat.shiftLeft_eq]

/-- The value of a string of binary digits, digit by digit, as a vector. -/
theorem ofNat_toInt_cons {c : Char} (t : TokenText) :
    BitVec.ofNat (t.length + 1) (toInt (c :: t)) = BitVec.cons (c == '1') (BitVec.ofNat t.length (toInt t)) := by
  have hval := toNat_ofNat_toInt (c :: t)
  rw [List.length_cons] at hval
  apply BitVec.eq_of_toNat_eq
  rw [hval, BitVec.toNat_cons', toNat_ofNat_toInt, toInt_cons]
  by_cases hc : c = '1' <;> simp [hc, Nat.shiftLeft_eq]

/-- A string of binary digits is the string of its value. -/
theorem spell_toInt {t : TokenText} (h : ∀ c ∈ t, c = '0' ∨ c = '1') :
    spell (BitVec.ofNat t.length (toInt t)) = t := by
  induction t with
  | nil => rfl
  | cons c t ih =>
    obtain ⟨hc, ht⟩ := List.forall_mem_cons.mp h
    rw [List.length_cons, ofNat_toInt_cons, spell_cons, ih ht]
    obtain rfl | rfl := hc <;> rfl

/-- The front end reads a spelled vector back. -/
@[simp] theorem tok_ofText_spell {n : Nat} (b : BitVec n) : Tok.ofText n (spell b) = .bits b := by
  rw [tok_ofText_of_valid (validateBinary_spell b), toInt_spell, BitVec.ofNat_toNat, BitVec.setWidth_eq]

/-- Settles O11: the two sides of `2 ^ w`, and zero. -/
theorem toFixedWidthNeverTruncates : Obligations.ToFixedWidthNeverTruncates := by
  intro v w
  refine ⟨fun h => ?_, fun h => ?_, toFixedWidth_of_lt (Nat.two_pow_pos w)⟩
  · simp [toFixedWidthText, toFixedWidth_of_le h, spell_zero]
  · simp [toFixedWidthText, toFixedWidth_of_lt h, Nat.mod_eq_of_lt h]

/-- Settles O12: spelling and reading are inverse to each other, and a string's value fits its own length. -/
theorem codecRoundTrips : Obligations.CodecRoundTrips := by
  constructor
  · intro v w h
    rw [toFixedWidthText, toFixedWidth_of_lt h, toInt_spell, BitVec.toNat_ofNat, Nat.mod_eq_of_lt h]
  · intro s h
    obtain ⟨-, hdigits⟩ := (validateBinary_iff s s.length).mp h
    rw [toFixedWidthText, toFixedWidth_of_lt (toInt_lt s), spell_toInt hdigits]

end Sys2Proof
end

section
/-! PROOFS. The instruction string and its slices, and decode of encode through text (30_encoding.md R43, R51). -/

namespace Sys2Proof

theorem spell_append {n m : Nat} (x : BitVec n) (y : BitVec m) : spell (x ++ y) = spell x ++ spell y := by
  simp only [spell, List.range_add, List.map_append, List.map_map]
  congr 1
  · apply List.map_congr_left
    intro k hk
    have hk : ¬ n ≤ k := by simpa using hk
    simp [BitVec.getMsbD_append, hk]
  · apply List.map_congr_left
    intro k _
    simp [BitVec.getMsbD_append]

/-- A word is made of its three fields. -/
theorem packWord_fields (I : InstrWord) : packWord (opField I) (aField I) (immField I) = I := by
  rw [packWord, opField, aField, immField, BitVec.extractLsb'_append_extractLsb'_eq_extractLsb' (by rfl),
    BitVec.extractLsb'_append_extractLsb'_eq_extractLsb' (by rfl), BitVec.extractLsb'_eq_self]

/-- The string of a word is the strings of its fields, one after the other (30_encoding.md R43). -/
theorem spell_word (I : InstrWord) : spell I = spell (opField I) ++ spell (aField I) ++ spell (immField I) := by
  conv_lhs => rw [← packWord_fields I, packWord, spell_append, spell_append]

/-- The slices `(0:4)`, `(4:7)`, `(7:12)` of the string of a word are the strings of its fields. -/
theorem ofString_spell (I : InstrWord) (fa : TokenText) :
    TextInput.ofString (spell I) fa = ⟨spell (opField I), spell (aField I), spell (immField I), fa⟩ := by
  have hop : (spell (opField I)).length = 4 := spell_length _
  have ha : (spell (aField I)).length = 3 := spell_length _
  rw [spell_word, TextInput.ofString, List.append_assoc, List.take_left' hop, List.drop_left' hop, List.take_left' ha,
    ← List.append_assoc, List.drop_left' (by simp)]

theorem ofText_ofString_spell (I : InstrWord) (fa : TokenText) :
    StepInput.ofText (TextInput.ofString (spell I) fa) = StepInput.ofWord I (Tok.ofText 3 fa) := by
  simp only [ofString_spell, StepInput.ofText, StepInput.ofWord, tok_ofText_spell]

theorem toNat_append_eq_add {n m : Nat} (x : BitVec n) (y : BitVec m) :
    (x ++ y).toNat = x.toNat * 2 ^ m + y.toNat := by
  rw [BitVec.toNat_append, ← Nat.shiftLeft_add_eq_or_of_lt y.isLt, Nat.shiftLeft_eq]

/-- The text of an encoded instruction passes the front end as the bundle of that encoding. -/
theorem ofText_ofEncoded (e : Encoded) : StepInput.ofText (TextInput.ofEncoded e) = StepInput.ofEncoded e := by
  obtain ⟨I, fa⟩ := e
  rw [TextInput.ofEncoded, ofText_ofString_spell, StepInput.ofEncoded]
  cases fa with
  | none => rfl
  | some fa => simp only [tok_ofText_spell, Tok.ofFollowUp]

/-- Settles O6: the slices by the string's three parts, the value by the widths of the fields. -/
theorem instructionStringCarriesTheFields : Obligations.InstructionStringCarriesTheFields := by
  refine ⟨ofText_ofString_spell, fun op a imm =>
    ⟨opField_packWord op a imm, aField_packWord op a imm, immField_packWord op a imm, ?_, by decide⟩⟩
  rw [toNat_append_eq_add, toNat_append_eq_add]
  omega

/-- Settles O4: the front end turns the text of an encoding into its bundle, which decodes by O3. -/
theorem textOfEncodeDecodesToTheInstruction : Obligations.TextOfEncodeDecodesToTheInstruction := by
  intro i hwf
  rw [ofText_ofEncoded]
  exact decodeOfEncodeIsTheInstruction i hwf

end Sys2Proof
end

section
/-! PROOFS. The opcode map, and the order of the decoder's checks (40_control.md R58, R59, 60_exceptions.md R85). -/

namespace Sys2Proof

/-- Settles O2: the sixteen patterns, one by one. -/
theorem opcodeMapHasElevenOperations : Obligations.OpcodeMapHasElevenOperations := by
  unfold Obligations.OpcodeMapHasElevenOperations
  decide

/-- A field passes its check when it is not read, or is well formed. -/
theorem exists_readField_eq_ok {n : Nat} {used : Bool} {t : Tok n} (f : TokenField)
    (h : used = true → t ≠ .malformed) : ∃ b, readField used f t = .ok b := by
  cases used with
  | false => exact ⟨0#n, rfl⟩
  | true =>
    cases t with
    | bits b => exact ⟨b, rfl⟩
    | malformed => exact absurd rfl (h rfl)

section Checks

variable {inp : StepInput} {o : Opcode} {f : TokenField} (hop : inp.op = .bits o)
include hop

/-- A rejected address decides, whatever the operand and the follow-up token hold. -/
theorem decode_of_address_error (ha : readField (opclass o).usesA .address inp.a = .error f) :
    decode inp = .error f := by
  simp only [decode, hop, ha]

/-- Behind an address that passes, a rejected operand decides. -/
theorem decode_of_operand_error {a : Idx} (ha : readField (opclass o).usesA .address inp.a = .ok a)
    (himm : readField (opclass o).usesImm .operand inp.imm = .error f) : decode inp = .error f := by
  simp only [decode, hop, ha, himm]

/-- Behind an address and an operand that pass, a rejected follow-up token decides. -/
theorem decode_of_followUp_error {a : Idx} {imm : Word} (ha : readField (opclass o).usesA .address inp.a = .ok a)
    (himm : readField (opclass o).usesImm .operand inp.imm = .ok imm)
    (hfa : readField (opclass o).usesFa .followUp inp.fa = .error f) : decode inp = .error f := by
  simp only [decode, hop, ha, himm, hfa]

/-- With an opcode whose class uses no field, nothing but the opcode is read. -/
theorem decode_of_no_field_used (hA : (opclass o).usesA = false) (hImm : (opclass o).usesImm = false)
    (hFa : (opclass o).usesFa = false) : decode inp = .ok (assemble (opclass o) o 0#3 0#5 0#3) := by
  apply decode_eq_ok hop
  · rw [hA, readField_unused]
  · rw [hImm, readField_unused]
  · rw [hFa, readField_unused]

/-- An unmapped opcode reads no further field (40_control.md R60). -/
theorem decode_of_opclass_invalid (hk : opclass o = .invalid) : decode inp = .ok (.invalid o) := by
  have hd := decode_of_no_field_used hop (by rw [hk]; rfl) (by rw [hk]; rfl) (by rw [hk]; rfl)
  rwa [hk] at hd

end Checks

/-- Settles O8: the checks one after the other; each is reached when those before it pass, and a class that takes a
follow-up token has no operand to check. -/
theorem firstFailingCheckDecides : Obligations.FirstFailingCheckDecides := by
  intro op a imm fa
  refine ⟨?_, ?_⟩
  · rintro rfl
    rfl
  rintro o rfl
  refine ⟨decode_of_opclass_invalid rfl, ?address, ?operand, ?followUp, ?wellFormed⟩
  case address =>
    rintro hA rfl
    exact decode_of_address_error rfl (by rw [hA, readField_malformed])
  case operand =>
    rintro hImm ha rfl
    obtain ⟨a', ha'⟩ := exists_readField_eq_ok .address fun _ => ha
    exact decode_of_operand_error rfl ha' (by rw [hImm, readField_malformed])
  case followUp =>
    rintro hFa ha rfl
    obtain ⟨a', ha'⟩ := exists_readField_eq_ok .address fun _ => ha
    have himm : readField (opclass o).usesImm .operand imm = .ok 0#5 := by
      rw [usesImm_of_usesFa hFa, readField_unused]
    exact decode_of_followUp_error rfl ha' himm (by rw [hFa, readField_malformed])
  case wellFormed =>
    intro ha himm hfa
    obtain ⟨a', ha'⟩ := exists_readField_eq_ok .address ha
    obtain ⟨imm', himm'⟩ := exists_readField_eq_ok .operand himm
    obtain ⟨fa', hfa'⟩ := exists_readField_eq_ok .followUp hfa
    exact ⟨_, decode_eq_ok rfl ha' himm' hfa', opClass_assemble .., wellFormed_assemble ..⟩

end Sys2Proof
end

section
/-! PROOFS. When a step exists, and what it is for each act of the host (40_control.md R57, R58, R63, R64). -/

namespace Sys2Proof.Machine

/-- The host does nothing more, asserts `rst`, or presents an instruction. -/
theorem input_cases (s : State) :
    s.input = [] ∨ (∃ rest, s.input = .rst :: rest) ∨ ∃ inp rest, Presents s inp rest := by
  cases hin : s.input with
  | nil => exact .inl rfl
  | cons act rest =>
    cases hb : act.bundle? with
    | none =>
      obtain rfl := bundle_eq_none hb
      exact .inr (.inl ⟨rest, rfl⟩)
    | some inp => exact .inr (.inr ⟨inp, rest, act, hin, hb⟩)

/-- `rst` is taken in either run state (70_reset_and_hazards.md R96). -/
theorem step_of_rst {s : State} {rest : List Stimulus} (h : s.input = .rst :: rest) :
    step s = .next (resetWith rest) := by
  simp only [step, fetch, h, Stimulus.bundle?]

theorem step_of_input_nil {s : State} (h : s.input = []) : step s = .fault (idleFault s.run) := by
  simp only [step, fetch, h]

/-- A Halted block accepts no instruction (40_control.md R57). -/
theorem step_of_halted_presents {s : State} {inp : StepInput} {rest : List Stimulus} (hr : s.run = .halted)
    (hp : Presents s inp rest) : step s = .fault .halted := by
  simp only [step, fetch_of_presents hp, acceptInstr, hr]

/-- Settles O13: a Running block accepts the presented bundle, and `exec` is applied to what it decodes to. -/
theorem stepRunsTheDecodedInstruction : Obligations.StepRunsTheDecodedInstruction := by
  intro s inp rest i hr hp hd
  simp only [step, fetch_of_presents hp, acceptInstr, hr, hd]

/-- A Running block answers every presented bundle with a next state, and the host's act is consumed. -/
theorem exists_step_of_running_presents {s : State} {inp : StepInput} {rest : List Stimulus} (hr : s.run = .running)
    (hp : Presents s inp rest) : ∃ t, step s = .next t ∧ t.input = rest := by
  cases hd : decode inp with
  | error f => exact ⟨_, step_of_decode_error hr hp hd, raise_input ..⟩
  | ok i =>
    refine ⟨_, (stepRunsTheDecodedInstruction s inp rest i hr hp hd).trans (exec_eq _ _), ?_⟩
    rw [finish_input, writeBack_input]

/-- Settles O16: there is a next state, and what it reports says whether the block is Halted. -/
theorem everyPresentedInstructionCompletes : Obligations.EveryPresentedInstructionCompletes := by
  intro s inp rest hr hp
  obtain ⟨t, hstep, hin⟩ := exists_step_of_running_presents hr hp
  obtain ⟨o, hout, hrun⟩ := step_presents_run_iff hr hp hstep
  exact ⟨t, o, hstep, hin, hout, hrun⟩

/-- Settles O17: an instruction presented while Halted meets a fault, and a next state comes from `rst` or from an
instruction presented while Running. -/
theorem noStepWhileHaltedOrIdle : Obligations.NoStepWhileHaltedOrIdle := by
  refine ⟨fun s inp rest t hr hp => ?_, fun s t h => ?_⟩
  · simp [step_of_halted_presents hr hp]
  · obtain ⟨rest, hrst, -⟩ | hpresents := step_rst_or_presents h
    · exact .inl ⟨rest, hrst⟩
    · exact .inr hpresents

/-- Settles O18: what the step answers for each act of the host, in each run state. -/
theorem stopsAreNamed : Obligations.StopsAreNamed := by
  intro s
  obtain hnil | ⟨rest, hrst⟩ | ⟨inp, rest, hp⟩ := input_cases s
  · rw [step_of_input_nil hnil]
    cases hr : s.run <;> simp [idleFault, hnil]
  · simp [step_of_rst hrst, hrst]
  · have hno : ∀ rest', s.input ≠ .rst :: rest' := fun _ hrst => not_presents_of_rst hrst hp
    have hne : s.input ≠ [] := by
      obtain ⟨act, hin, -⟩ := hp
      simp [hin]
    cases hr : s.run with
    | running =>
      obtain ⟨t, hstep, -⟩ := exists_step_of_running_presents hr hp
      simp [hstep, hne]
    | halted => simp [step_of_halted_presents hr hp, hno]

/-- Settles O20: the next state is the reset state with the remaining acts. -/
theorem rstStartsANewLog : Obligations.RstStartsANewLog :=
  fun _ rest h => ⟨resetWith rest, step_of_rst h, rfl, rfl⟩

end Sys2Proof.Machine
end

section
/-! PROOFS. HALT, the unknown opcodes, and the final report of a Halted block (40_control.md R60, R62). -/

namespace Sys2Proof.Machine

/-- What decodes to `i` whatever the other fields hold does so from a word as from a bundle. -/
theorem readsNoField_of_decode {op : Opcode} {i : Instr}
    (h : ∀ inp : StepInput, inp.op = .bits op → decode inp = .ok i) : ReadsNoField op i :=
  ⟨fun a imm fa => h _ (by rw [ofWord_append]), fun _ _ _ => h _ rfl⟩

/-- Settles O25: the opcode of HALT uses no field; HALT sets `RUN` and reports the words it finds. -/
theorem haltRendersMemoryAndHalts : Obligations.HaltRendersMemoryAndHalts := by
  refine ⟨readsNoField_of_decode fun inp hop => decode_of_no_field_used hop rfl rfl rfl, fun s => ?_⟩
  exact ⟨s.halt.finish (haltOut s.M), rfl, rfl, fun b => readM_halt s b, rfl, rfl, rfl, flagsAre_finish _ _⟩

/-- Settles O37: an unmapped opcode reads no field, and its instruction is the one event of `raise`. -/
theorem unknownOpcodeIsReportedOnly : Obligations.UnknownOpcodeIsReportedOnly := by
  refine ⟨fun op hmem => readsNoField_of_decode fun inp hop => decode_of_opclass_invalid hop ?_, fun s op => ?_⟩
  · exact (wellFormed_invalid_iff op).mp (List.contains_iff_mem.mpr hmem)
  · exact ⟨s.raise .unknownOpcode, rfl, readM_raise s _, ⟨rfl, rfl, rfl, rfl⟩, flagsAre_finish _ _⟩

/-- Settles O52: `rst` leaves the block Running, so a step into Halted is a HALT of a Running block, which reports the
words it leaves; a Halted block takes no step but `rst`, so the report stays the last. -/
theorem stepKeepsHaltReported : Obligations.StepKeepsHaltReported := by
  intro s t _ h ht
  have hr : s.run = .running := by
    obtain ⟨rest, -, rfl⟩ | ⟨hr, -⟩ := step_rst_or_presents h
    · cases ht
    · exact hr
  obtain ⟨hhalt, -⟩ := onlyHaltAndResetWriteRun
  obtain ⟨inp, rest, hp, hd⟩ := hhalt s t hr h ht
  rw [stepRunsTheDecodedInstruction s inp rest .halt hr hp hd] at h
  obtain ⟨-, hexec⟩ := haltRendersMemoryAndHalts
  obtain ⟨t', ht', -, -, -, -, hout, -⟩ := hexec { s with input := rest }
  obtain rfl : t' = t := Host.Outcome.next.inj (ht'.symm.trans h)
  exact ⟨_, by rw [hout, List.getLast?_concat], rfl, rfl, rfl⟩

end Sys2Proof.Machine
end

section
/-! PROOFS. The opcodes that read an address, alone or with an operand, and the transfers LOAD and STORE
(30_encoding.md R53, 41_transfer.md R65, R66). -/

namespace Sys2Proof.Machine

/-- An opcode whose class uses `a` alone: the other fields count as zero, and a malformed address is rejected. -/
theorem readsAddress_of_uses {op : Opcode} {mk : Idx → Instr} (hA : (opclass op).usesA = true)
    (hImm : (opclass op).usesImm = false) (hFa : (opclass op).usesFa = false)
    (hmk : ∀ a, assemble (opclass op) op a 0#5 0#3 = mk a) : ReadsAddress op mk := by
  have hok (a : Idx) (imm : Tok 5) (fa : Tok 3) : decode ⟨.bits op, .bits a, imm, fa⟩ = .ok (mk a) := by
    rw [← hmk a]
    exact decode_eq_ok rfl (by rw [hA, readField_bits]) (by rw [hImm, readField_unused]) (by rw [hFa, readField_unused])
  refine ⟨fun a imm fa => ?_, hok, fun imm fa => ?_⟩
  · rw [ofWord_append]
    exact hok a (.bits imm) fa
  · exact decode_of_address_error rfl (by rw [hA, readField_malformed])

/-- An opcode whose class uses `a` and `imm`: the address is checked before the operand, and `fa` counts as zero. -/
theorem readsAddressAndOperand_of_uses {op : Opcode} {mk : Idx → Word → Instr} (hA : (opclass op).usesA = true)
    (hImm : (opclass op).usesImm = true) (hFa : (opclass op).usesFa = false)
    (hmk : ∀ a imm, assemble (opclass op) op a imm 0#3 = mk a imm) : ReadsAddressAndOperand op mk := by
  refine ⟨fun a imm fa => ?_, fun imm fa => ?_, fun a fa => ?_⟩
  · rw [ofWord_append, ← hmk a imm]
    exact decode_eq_ok rfl (by rw [hA, readField_bits]) (by rw [hImm, readField_bits]) (by rw [hFa, readField_unused])
  · exact decode_of_address_error rfl (by rw [hA, readField_malformed])
  · exact decode_of_operand_error rfl (by rw [hA, readField_bits]) (by rw [hImm, readField_malformed])

/-- Settles O26: the opcode of LOAD uses `a` alone; LOAD writes `ACC` and reports what it wrote. -/
theorem loadWritesAccAndRendersIt : Obligations.LoadWritesAccAndRendersIt := by
  refine ⟨readsAddress_of_uses rfl rfl rfl fun _ => rfl, fun s a => ?_⟩
  exact ⟨(s.writeAcc (s.readM a)).finish (okOut [.renderAcc (s.readM a)] false), rfl, rfl,
    fun b => readM_writeAcc s (s.readM a) b, rfl, rfl, rfl, flagsAre_finish _ _⟩

/-- Settles O27: the opcode of STORE uses `a` and `imm`; STORE writes the one word and reports the words it leaves. -/
theorem storeWritesTheImmediate : Obligations.StoreWritesTheImmediate := by
  refine ⟨readsAddressAndOperand_of_uses rfl rfl rfl fun _ _ => rfl, fun s a imm => ?_⟩
  exact ⟨(s.writeM a imm).finish (okOut [.renderMem (s.writeM a imm).M] false), rfl, readM_writeM_same s a imm,
    fun b hb => readM_writeM_other s imm hb, ⟨rfl, rfl, rfl, rfl⟩, flagsAre_finish _ _⟩

end Sys2Proof.Machine
end

section
/-! PROOFS. The ALU's table on 0..31, and what its four instructions do (42_alu.md R67 to R76). -/

namespace Sys2Proof.Machine

/-! ### The table -/

theorem reencode_eq_ite (act : AluAction) (r : Nat) :
    reencode act (r : Int) = if r ≤ 31 then ⟨.ok, .write (BitVec.ofNat 5 r)⟩ else ⟨.overflow, act⟩ := by
  split
  · exact reencode_of_le ‹_›
  · exact reencode_of_gt (by omega)

/-- Settles O42: the ALU computes on the integers; only a sum or a product can leave the range, a difference of words
is at most 31 and its sign is tested first, and a quotient of words is at most 31. -/
theorem aluNeverWraps : Obligations.AluNeverWraps := by
  intro x y hx hy
  simp only [alu_eq_aluExact _ hx hy, aluExact]
  refine ⟨?add, ?sub, ?mul, ?div⟩
  case add => rw [← Nat.cast_add, reencode_eq_ite]
  case sub =>
    split
    · rw [← Nat.cast_sub ‹_›, reencodeDifference_of_nonneg, reencode_of_le (by omega)]
    · exact reencodeDifference_of_neg (by omega)
  case mul => rw [← Nat.cast_mul, reencode_eq_ite]
  case div => rw [reencode_of_le ((Nat.div_le_self x y).trans hx)]

/-- The four rows of the table on the operands of an instruction (42_alu.md R67, R74). -/
theorem aluResult_table (a : Idx) (imm : Word) (s : State) :
    aluResult .add a imm s = (if (s.readM a).toNat + imm.toNat ≤ 31
        then ⟨.ok, .write (BitVec.ofNat 5 ((s.readM a).toNat + imm.toNat))⟩ else ⟨.overflow, .noWrite⟩) ∧
      aluResult .sub a imm s = (if imm.toNat ≤ (s.readM a).toNat
        then ⟨.ok, .write (BitVec.ofNat 5 ((s.readM a).toNat - imm.toNat))⟩ else ⟨.underflow, .write 0#5⟩) ∧
      aluResult .mul a imm s = (if (s.readM a).toNat * imm.toNat ≤ 31
        then ⟨.ok, .write (BitVec.ofNat 5 ((s.readM a).toNat * imm.toNat))⟩ else ⟨.overflow, .noWrite⟩) ∧
      aluResult .div a imm s = (if imm.toNat = 0
        then ⟨.divByZero, .noWrite⟩ else ⟨.ok, .write (BitVec.ofNat 5 ((s.readM a).toNat / imm.toNat))⟩) :=
  aluNeverWraps _ _ (memOperand_le s a) (immOperand_le imm)

/-! ### An ALU step that succeeds, and one that fails -/

theorem AluOp.failure_ne_ok (k : AluOp) : k.failure ≠ .ok := by
  cases k <;> decide

@[simp] theorem aluErrorEvents_ok (k : AluOp) : aluErrorEvents k .ok = [] :=
  if_neg k.failure_ne_ok.symm

@[simp] theorem aluErrorEvents_failure (k : AluOp) : aluErrorEvents k k.failure = [.error k.failureKind] :=
  if_pos rfl

/-- The report and the flags of an ALU step, by the status that the ALU returns (42_alu.md R69, R76). -/
theorem aluStep_reports {k : AluOp} {a : Idx} {imm : Word} {s : State} {r : AluResult}
    (h : aluResult k a imm s = r) :
    (aluStep k a imm s).readM a = (s.applyAction a r.action).readM a ∧
      Reports s (aluStep k a imm s) (aluOut k r.status (aluStep k a imm s).M) ∧
      FlagsAre (aluStep k a imm s) r.status.ovf r.status.unf r.status.dz := by
  subst h
  exact ⟨rfl, ⟨aluStep_acc .., aluStep_run .., aluStep_input .., aluStep_outputs ..⟩, flagsAre_finish _ _⟩

/-- An ALU step on which the ALU returns the word of a value 0..31. -/
theorem aluStep_of_ok {k : AluOp} {a : Idx} {imm : Word} {s : State} {n : Nat} (hn : n ≤ 31)
    (h : aluResult k a imm s = ⟨.ok, .write (BitVec.ofNat 5 n)⟩) :
    ((aluStep k a imm s).readM a).toNat = n ∧
      Reports s (aluStep k a imm s) ⟨[.renderMem (aluStep k a imm s).M], .ok, .continues, false⟩ ∧
      FlagsAre (aluStep k a imm s) false false false := by
  obtain ⟨hread, hrep, hflags⟩ := aluStep_reports h
  refine ⟨?_, by simpa [aluOut] using hrep, hflags⟩
  calc ((aluStep k a imm s).readM a).toNat = (BitVec.ofNat 5 n).toNat :=
        congrArg BitVec.toNat (hread.trans (readM_writeM_same s a _))
    _ = n % 2 ^ 5 := BitVec.toNat_ofNat n 5
    _ = n := Nat.mod_eq_of_lt (by omega)

/-- An ALU step on which the ALU fails: the error is reported before the render. -/
theorem aluStep_of_failure {k : AluOp} {a : Idx} {imm : Word} {s : State} {act : AluAction}
    (h : aluResult k a imm s = ⟨k.failure, act⟩) :
    (aluStep k a imm s).readM a = (s.applyAction a act).readM a ∧
      Reports s (aluStep k a imm s)
        ⟨[.error k.failureKind, .renderMem (aluStep k a imm s).M], k.failure, .continues, false⟩ ∧
      FlagsAre (aluStep k a imm s) k.failure.ovf k.failure.unf k.failure.dz := by
  simpa [aluOut] using aluStep_reports h

/-! ### ADD, SUB, MUL, DIV -/

/-- Settles O28: a sum above 31 is the one failure, and it writes nothing. -/
theorem addStoresTheSumOrReportsOverflow : Obligations.AddStoresTheSumOrReportsOverflow := by
  refine ⟨readsAddressAndOperand_of_uses rfl rfl rfl fun _ _ => rfl, fun s a imm => ?_⟩
  obtain ⟨hadd, -⟩ := aluResult_table a imm s
  refine ⟨aluStep .add a imm s, rfl, fun b hb => readM_aluStep_other .add imm s hb, fun hfit => ?_, fun hover => ?_⟩
  · exact aluStep_of_ok hfit (hadd.trans (if_pos hfit))
  · exact aluStep_of_failure (hadd.trans (if_neg (by omega)))

/-- Settles O29: a negative difference is the one failure, and it writes 0. -/
theorem subStoresTheDifferenceOrClampsToZero : Obligations.SubStoresTheDifferenceOrClampsToZero := by
  refine ⟨readsAddressAndOperand_of_uses rfl rfl rfl fun _ _ => rfl, fun s a imm => ?_⟩
  obtain ⟨-, hsub, -⟩ := aluResult_table a imm s
  refine ⟨aluStep .sub a imm s, rfl, fun b hb => readM_aluStep_other .sub imm s hb, fun hle => ?_, fun hlt => ?_⟩
  · have hx : (s.readM a).toNat ≤ 31 := memOperand_le s a
    exact aluStep_of_ok (by omega) (hsub.trans (if_pos hle))
  · obtain ⟨hread, hrest⟩ := aluStep_of_failure (hsub.trans (if_neg (by omega)))
    exact ⟨hread.trans (readM_writeM_same s a 0#5), hrest⟩

/-- Settles O30: a product above 31 is the one failure, and it writes nothing. -/
theorem mulStoresTheProductOrReportsOverflow : Obligations.MulStoresTheProductOrReportsOverflow := by
  refine ⟨readsAddressAndOperand_of_uses rfl rfl rfl fun _ _ => rfl, fun s a imm => ?_⟩
  obtain ⟨-, -, hmul, -⟩ := aluResult_table a imm s
  refine ⟨aluStep .mul a imm s, rfl, fun b hb => readM_aluStep_other .mul imm s hb, fun hfit => ?_, fun hover => ?_⟩
  · exact aluStep_of_ok hfit (hmul.trans (if_pos hfit))
  · exact aluStep_of_failure (hmul.trans (if_neg (by omega)))

/-- Settles O31: a zero divisor is the one failure, and it writes nothing; a quotient is at most its dividend. -/
theorem divStoresTheQuotientOrReportsZeroDivisor : Obligations.DivStoresTheQuotientOrReportsZeroDivisor := by
  refine ⟨readsAddressAndOperand_of_uses rfl rfl rfl fun _ _ => rfl, fun s a imm => ?_⟩
  obtain ⟨-, -, -, hdiv⟩ := aluResult_table a imm s
  refine ⟨aluStep .div a imm s, rfl, fun b hb => readM_aluStep_other .div imm s hb, fun hne => ?_, fun hzero => ?_⟩
  · have himm : imm.toNat ≠ 0 := fun h => hne (BitVec.eq_of_toNat_eq h)
    exact aluStep_of_ok ((Nat.div_le_self _ _).trans (memOperand_le s a)) (hdiv.trans (if_neg himm))
  · exact aluStep_of_failure (hdiv.trans (if_pos (congrArg BitVec.toNat hzero)))

/-- Settles O51: the sum fits, so the difference takes the immediate off it again; no other word is touched. -/
theorem addThenSubRestoresTheWord : Obligations.AddThenSubRestoresTheWord := by
  intro s a imm hfit
  obtain ⟨-, hadd⟩ := addStoresTheSumOrReportsOverflow
  obtain ⟨-, hsub⟩ := subStoresTheDifferenceOrClampsToZero
  obtain ⟨t, ht, hkeep, hsum, -⟩ := hadd s a imm
  obtain ⟨u, hu, hkeep', hdiff, -⟩ := hsub t a imm
  obtain ⟨htread, -⟩ := hsum hfit
  obtain ⟨huread, -⟩ := hdiff (by omega)
  refine ⟨t, u, ht, hu, fun b => ?_⟩
  by_cases hb : b = a
  · subst hb
    exact BitVec.eq_of_toNat_eq (by omega)
  · exact (hkeep' b hb).trans (hkeep b hb)

end Sys2Proof.Machine
end

section
/-! PROOFS. The flag detector: a step reports a failure of the ALU only when it runs the operation that can fail so
(42_alu.md R69). -/

namespace Sys2Proof.Machine

/-! ### The flags of a status -/

theorem Status.ovf_iff (st : Status) : st.ovf = true ↔ st = .overflow := beq_iff_eq

theorem Status.unf_iff (st : Status) : st.unf = true ↔ st = .underflow := beq_iff_eq

theorem Status.dz_iff (st : Status) : st.dz = true ↔ st = .divByZero := beq_iff_eq

/-- At most one flag is 1. -/
theorem Status.flags_exclusive (st : Status) :
    (st.ovf && st.unf) = false ∧ (st.ovf && st.dz) = false ∧ (st.unf && st.dz) = false := by
  cases st <;> decide

theorem signals?_finish (s : State) (o : StepOut) : (s.finish o).signals? = some o.signals := by
  simp [State.signals?]

/-! ### Who reports a failure of the ALU -/

/-- The instruction that runs an ALU operation. -/
def aluInstr (k : AluOp) (a : Idx) (imm : Word) : Instr :=
  match k with
  | .add => .add a imm
  | .sub => .sub a imm
  | .mul => .mul a imm
  | .div => .div a imm

theorem AluOp.failure_ne_malformedToken (k : AluOp) : k.failure ≠ .malformedToken := by
  cases k <;> decide

theorem AluOp.failure_ne_unknownOpcode (k : AluOp) : k.failure ≠ .unknownOpcode := by
  cases k <;> decide

/-- An ALU operation fails in no way but its own. -/
theorem failure_eq_of_aluResult_status {k k' : AluOp} {a : Idx} {imm : Word} {s : State}
    (h : (aluResult k a imm s).status = k'.failure) : k.failure = k'.failure := by
  obtain hok | hfail := alu_status (k := k) (memOperand_le s a) (immOperand_le imm)
  · exact absurd (h.symm.trans hok) k'.failure_ne_ok
  · exact hfail.symm.trans h

/-- An instruction that reports a failure of the ALU runs an operation that can fail so. -/
theorem aluInstr_of_report_status {i : Instr} {s : State} {k' : AluOp} (h : (report i s).status = k'.failure) :
    ∃ k a imm, i = aluInstr k a imm ∧ k.failure = k'.failure := by
  cases i with
  | add a imm => exact ⟨.add, a, imm, rfl, failure_eq_of_aluResult_status h⟩
  | sub a imm => exact ⟨.sub, a, imm, rfl, failure_eq_of_aluResult_status h⟩
  | mul a imm => exact ⟨.mul, a, imm, rfl, failure_eq_of_aluResult_status h⟩
  | div a imm => exact ⟨.div, a, imm, rfl, failure_eq_of_aluResult_status h⟩
  | invalid => exact absurd h.symm k'.failure_ne_unknownOpcode
  | _ => exact absurd h.symm k'.failure_ne_ok

/-- A step on a presented instruction appends one report, which drives the output signals; where it carries a failure
of the ALU, the instruction runs an operation that can fail so. -/
theorem step_presents_aluFailure {s t : State} {inp : StepInput} {rest : List Stimulus} (hp : Presents s inp rest)
    (h : step s = .next t) :
    ∃ o, t.outputs = s.outputs ++ [o] ∧ t.signals? = some o.signals ∧
      ∀ k' : AluOp, o.status = k'.failure →
        ∃ k a imm, decode inp = .ok (aluInstr k a imm) ∧ k.failure = k'.failure := by
  obtain ⟨f, -, rfl⟩ | ⟨i, hd, he⟩ := step_presents_cases hp h
  · exact ⟨errorOut (.malformedToken f), raise_outputs .., signals?_finish _ _,
      fun k' hk => absurd hk.symm k'.failure_ne_malformedToken⟩
  · obtain rfl := exec_eq_next_iff.mp he
    refine ⟨report i { s with input := rest }, by simp, signals?_finish _ _, fun k' hk => ?_⟩
    obtain ⟨k, a, imm, rfl, hfail⟩ := aluInstr_of_report_status hk
    exact ⟨k, a, imm, hd, hfail⟩

/-- Settles O44: the signals' flags are those of the reported status, and an ALU status comes from an operation that
can fail so. -/
theorem flagsFollowTheStatus : Obligations.FlagsFollowTheStatus := by
  intro s t inp rest _ hp h
  obtain ⟨o, hout, hsig, hfail⟩ := step_presents_aluFailure hp h
  obtain ⟨hou, hod, hud⟩ := o.status.flags_exclusive
  refine ⟨o, o.signals, hout, hsig, rfl, o.status.ovf_iff, o.status.unf_iff, o.status.dz_iff, hou, hod, hud,
    fun hovf => ?ovf, fun hunf => ?unf, fun hdz => ?dz⟩
  case ovf =>
    obtain ⟨k, a, imm, hd, hk⟩ := hfail .add (o.status.ovf_iff.mp hovf)
    cases k with
    | add => exact ⟨a, imm, .inl hd⟩
    | mul => exact ⟨a, imm, .inr hd⟩
    | sub | div => cases hk
  case unf =>
    obtain ⟨k, a, imm, hd, hk⟩ := hfail .sub (o.status.unf_iff.mp hunf)
    cases k with
    | sub => exact ⟨a, imm, hd⟩
    | add | mul | div => cases hk
  case dz =>
    obtain ⟨k, a, imm, hd, hk⟩ := hfail .div (o.status.dz_iff.mp hdz)
    cases k with
    | div => exact ⟨a, imm, hd⟩
    | add | sub | mul => cases hk

end Sys2Proof.Machine
end

section
/-! PROOFS. COMPARE_TWO and COMPARE_ALL: what they report, and that they write nothing (43_compare.md R77 to R79). -/

namespace Sys2Proof.Machine

/-! ### COMPARE_TWO -/

/-- An opcode whose class takes a follow-up token: the address is checked before it, and the operand counts as
zero (30_encoding.md R51, R53). -/
theorem readsAddressAndFollowUp_of_uses {op : Opcode} {mk : Idx → Idx → Instr} (hFa : (opclass op).usesFa = true)
    (hmk : ∀ a fa, assemble (opclass op) op a 0#5 fa = mk a fa) : ReadsAddressAndFollowUp op mk := by
  have hA : (opclass op).usesA = true := usesA_of_usesFa hFa
  have hImm : (opclass op).usesImm = false := usesImm_of_usesFa hFa
  have hok (a : Idx) (imm : Tok 5) (fa : Idx) : decode ⟨.bits op, .bits a, imm, .bits fa⟩ = .ok (mk a fa) := by
    rw [← hmk a fa]
    exact decode_eq_ok rfl (by rw [hA, readField_bits]) (by rw [hImm, readField_unused]) (by rw [hFa, readField_bits])
  refine ⟨fun a imm fa => ?_, hok, fun imm fa => ?_, fun a imm => ?_⟩
  · rw [ofWord_append]
    exact hok a (.bits imm) fa
  · exact decode_of_address_error rfl (by rw [hA, readField_malformed])
  · exact decode_of_followUp_error rfl (by rw [hA, readField_bits]) (by rw [hImm, readField_unused])
      (by rw [hFa, readField_malformed])

/-- The three branches name the order of the two values. -/
theorem relation_iff (x z : Nat) :
    (relation x z = .gt ↔ z < x) ∧ (relation x z = .lt ↔ x < z) ∧ (relation x z = .eq ↔ x = z) := by
  obtain hlt | rfl | hgt := lt_trichotomy x z
  · simp [relation_lt hlt, hlt, hlt.ne, hlt.le]
  · simp [relation_self]
  · simp [relation_gt hgt, hgt, hgt.ne', hgt.le]

/-- A step that only reports, with status `OK`, keeps the state and raises no flag. -/
theorem finish_okOut_frame (s : State) (es : List Event) (q : Bool) :
    KeepsMemory s (s.finish (okOut es q)) ∧ Reports s (s.finish (okOut es q)) ⟨es, .ok, .continues, q⟩ ∧
      FlagsAre (s.finish (okOut es q)) false false false :=
  ⟨readM_finish s _, ⟨rfl, rfl, rfl, rfl⟩, flagsAre_finish _ _⟩

/-- Settles O32: the opcode of COMPARE_TWO takes a follow-up token; COMPARE_TWO only reports, and equal values are
equal words. -/
theorem compareTwoReportsTheRelation : Obligations.CompareTwoReportsTheRelation := by
  refine ⟨readsAddressAndFollowUp_of_uses rfl fun _ _ => rfl, fun s a fa => ?_⟩
  obtain ⟨hmem, hrep, hflags⟩ := finish_okOut_frame s [.cmp (relation (s.memOperand a) (s.memOperand fa))] true
  obtain ⟨hgt, hlt, heq⟩ := relation_iff (s.memOperand a) (s.memOperand fa)
  exact ⟨_, _, rfl, hmem, hrep, hflags, hgt, hlt, heq.trans BitVec.toNat_inj⟩

/-! ### COMPARE_ALL -/

/-- The loop over at least one value: whatever pair it starts from, it takes in the greatest and the least value. -/
theorem foldl_scanWord_eq (v : Nat) (vs : List Nat) :
    ∃ mx mn : Nat, IsGreatest {x | x ∈ v :: vs} mx ∧ IsLeast {x | x ∈ v :: vs} mn ∧
      ∀ p : Int × Int, (v :: vs).foldl scanWord p = (max p.1 mx, min p.2 mn) := by
  induction vs generalizing v with
  | nil => exact ⟨v, v, by simp, by simp, fun p => scanWord_eq p v⟩
  | cons w ws ih =>
    obtain ⟨mx, mn, hmx, hmn, hfold⟩ := ih w
    have hset : {x | x ∈ v :: w :: ws} = insert v {x | x ∈ w :: ws} := by
      ext x
      exact List.mem_cons
    refine ⟨max v mx, min v mn, hset ▸ hmx.insert v, hset ▸ hmn.insert v, fun p => ?_⟩
    rw [List.foldl_cons, hfold, scanWord_eq, max_assoc, min_assoc, Nat.cast_max, Nat.cast_min]

/-- The scanned values are the values of the words at the eight indices. -/
theorem mem_memValues {s : State} {v : Nat} : v ∈ s.memValues ↔ ∃ b, (s.readM b).toNat = v := by
  simp only [State.memValues, List.mem_map, Vector.mem_toList_iff, Vector.mem_iff_getElem]
  constructor
  · rintro ⟨w, ⟨i, hi, rfl⟩, rfl⟩
    exact ⟨BitVec.ofNat 3 i, by simp [State.readM, Nat.mod_eq_of_lt hi]⟩
  · rintro ⟨b, rfl⟩
    exact ⟨s.readM b, ⟨b.toNat, b.isLt, rfl⟩, rfl⟩

/-- Two words bound all of them, and from sentinels below and above every word the loop finds these two
(43_compare.md R78, R79). -/
theorem exists_bounds_foldl_scanWord (s : State) :
    ∃ bmx bmn : Idx, (∀ b, (s.readM bmn).toNat ≤ (s.readM b).toNat ∧ (s.readM b).toNat ≤ (s.readM bmx).toNat) ∧
      ∀ mx0 mn0 : Int, mx0 < 0 → 31 < mn0 →
        s.memValues.foldl scanWord (mx0, mn0) = (((s.readM bmx).toNat : Int), ((s.readM bmn).toNat : Int)) := by
  have hmem (b : Idx) : (s.readM b).toNat ∈ s.memValues := mem_memValues.mpr ⟨b, rfl⟩
  obtain ⟨v, vs, hvs⟩ : ∃ v vs, s.memValues = v :: vs := List.exists_cons_of_ne_nil (List.ne_nil_of_mem (hmem 0))
  obtain ⟨mx, mn, ⟨hmx, hge⟩, ⟨hmn, hle⟩, hfold⟩ := foldl_scanWord_eq v vs
  rw [← hvs] at hmx hmn hge hle hfold
  obtain ⟨bmx, rfl⟩ := mem_memValues.mp hmx
  obtain ⟨bmn, rfl⟩ := mem_memValues.mp hmn
  refine ⟨bmx, bmn, fun b => ⟨hle (hmem b), hge (hmem b)⟩, fun mx0 mn0 hmx0 hmn0 => ?_⟩
  have hmn31 : (s.readM bmn).toNat ≤ 31 := memOperand_le s bmn
  rw [hfold, max_eq_right (by omega), min_eq_right (by omega)]

theorem word_toNat (w : Word) : word w.toNat = w := by
  simp [word]

/-- Settles O33: the opcode of COMPARE_ALL uses no field; COMPARE_ALL only reports, and the loop finds the two words
that bound all. -/
theorem compareAllReportsMaximumAndMinimum : Obligations.CompareAllReportsMaximumAndMinimum := by
  refine ⟨readsNoField_of_decode fun inp hop => decode_of_no_field_used hop rfl rfl rfl, fun s => ?_⟩
  obtain ⟨bmx, bmn, hbounds, hfold⟩ := exists_bounds_foldl_scanWord s
  have hscan : scan s.memValues = (((s.readM bmx).toNat : Int), ((s.readM bmn).toNat : Int)) :=
    hfold _ _ (by decide) (by decide)
  have hexec : exec .compareAll s = .next (s.finish (okOut [.maxMin (s.readM bmx) (s.readM bmn)] false)) := by
    rw [exec_eq, writeBack, report, hscan, word_toNat, word_toNat]
  obtain ⟨hmem, hrep, hflags⟩ := finish_okOut_frame s [.maxMin (s.readM bmx) (s.readM bmn)] false
  exact ⟨_, _, _, hexec, hmem, hrep, hflags, ⟨bmx, rfl⟩, ⟨bmn, rfl⟩, hbounds⟩

/-- Settles O34: from any such sentinels the loop finds the same two words; where all words are zero, so are the two
that are reported. -/
theorem sentinelsDoNotMatter : Obligations.SentinelsDoNotMatter := by
  refine ⟨fun s mx0 mn0 hmx0 hmn0 => ⟨?_, rfl⟩, fun s hzero => ?_⟩
  · obtain ⟨bmx, bmn, -, hfold⟩ := exists_bounds_foldl_scanWord s
    rw [hfold mx0 mn0 hmx0 hmn0, hfold (-1) 32 (by decide) (by decide)]
  · obtain ⟨-, hall⟩ := compareAllReportsMaximumAndMinimum
    obtain ⟨t, mx, mn, hexec, -, ⟨-, -, -, hout⟩, -, ⟨bmx, rfl⟩, ⟨bmn, rfl⟩, -⟩ := hall s
    exact ⟨t, _, hexec, hout, by rw [hzero, hzero]⟩

end Sys2Proof.Machine
end

section
/-! PROOFS. CLEAR_ONE and CLEAR_ALL: the words they zero, and what they confirm and render (44_clear.md R80, R81). -/

namespace Sys2Proof.Machine

/-- CLEAR_ONE leaves zero at its follow-up index and every other word as it was, whatever its primary address
(44_clear.md R80). -/
theorem writeBack_clearOne_words (s : State) (a fa : Idx) :
    (writeBack (.clearOne a fa) s).readM fa = 0#5 ∧ KeepsOtherWords s (writeBack (.clearOne a fa) s) fa :=
  ⟨readM_writeM_same s fa 0#5, fun _ hb => readM_writeM_other s 0#5 hb⟩

/-- Settles O35: the opcode of CLEAR_ONE takes a follow-up token; the write goes to the follow-up index, and the
report confirms it and renders the words after it. -/
theorem clearOneClearsTheFollowUpWord : Obligations.ClearOneClearsTheFollowUpWord := by
  refine ⟨readsAddressAndFollowUp_of_uses rfl fun _ _ => rfl, fun s a fa => ?_⟩
  obtain ⟨hzero, hkeep⟩ := writeBack_clearOne_words s a fa
  exact ⟨_, exec_eq _ s, hzero, hkeep, ⟨rfl, rfl, rfl, rfl⟩, flagsAre_finish _ _⟩

/-- Settles O36: the opcode of CLEAR_ALL uses no field; every word reads zero after it, and the report confirms it
and renders them. -/
theorem clearAllClearsEveryWord : Obligations.ClearAllClearsEveryWord := by
  refine ⟨readsNoField_of_decode fun inp hop => decode_of_no_field_used hop rfl rfl rfl, fun s => ?_⟩
  have hzero (b : Idx) : (writeBack .clearAll s).readM b = 0#5 := readM_clearM s b
  exact ⟨_, exec_eq _ s, hzero, ⟨rfl, rfl, rfl, rfl⟩, flagsAre_finish _ _⟩

end Sys2Proof.Machine
end

section
/-! PROOFS. Each report has at most one error, first and with its own status, and then continues
(60_exceptions.md R84 to R86). -/

namespace Sys2Proof.Machine

/-! ### The errors of a report -/

@[simp] theorem errors_errorOut (k : ErrorKind) : (errorOut k).errors = [k] := rfl

@[simp] theorem errors_aluOut (k : AluOp) (st : Status) (m : RegFile) :
    (aluOut k st m).errors = if st = k.failure then [k.failureKind] else [] := by
  unfold StepOut.errors aluOut aluErrorEvents
  split <;> rfl

@[simp] theorem AluOp.failureKind_status (k : AluOp) : k.failureKind.status = k.failure := by
  cases k <;> rfl

/-! ### Consistent reports -/

theorem reportConsistent_errorOut (k : ErrorKind) : ReportConsistent (errorOut k) :=
  .inr ⟨k, rfl, rfl, rfl, rfl⟩

/-- The report of an ALU operation that succeeds, or fails in its own way. -/
theorem reportConsistent_aluOut {k : AluOp} {st : Status} (m : RegFile) (h : st = .ok ∨ st = k.failure) :
    ReportConsistent (aluOut k st m) := by
  obtain rfl | rfl := h
  · exact .inl ⟨rfl, by simp [k.failure_ne_ok.symm]⟩
  · exact .inr ⟨k.failureKind, by simp, by simp [aluOut], k.failureKind_status.symm, rfl⟩

/-- SUB and DIV never report an overflow, so the ALU's one failure is the one that its instruction reports. -/
theorem reportConsistent_report (i : Instr) (s : State) : ReportConsistent (report i s) := by
  cases i with
  | add | sub | mul | div => exact reportConsistent_aluOut _ (alu_status (memOperand_le ..) (immOperand_le ..))
  | invalid => exact reportConsistent_errorOut .unknownOpcode
  | _ => exact .inl ⟨rfl, rfl⟩

theorem continues_of_errors_ne_nil {o : StepOut} (ho : ReportConsistent o) (he : o.errors ≠ []) :
    o.outcome = .continues := by
  obtain ⟨-, hnil⟩ | ⟨k, -, -, -, hcont⟩ := ho
  · exact absurd hnil he
  · exact hcont

theorem step_presents_reportConsistent {s t : State} {inp : StepInput} {rest : List Stimulus}
    (hp : Presents s inp rest) (h : step s = .next t) :
    ∃ o, t.outputs = s.outputs ++ [o] ∧ ReportConsistent o := by
  obtain ⟨f, -, rfl⟩ | ⟨i, -, he⟩ := step_presents_cases hp h
  · exact ⟨errorOut (.malformedToken f), raise_outputs .., reportConsistent_errorOut _⟩
  · obtain rfl := exec_eq_next_iff.mp he
    exact ⟨report i { s with input := rest }, by simp, reportConsistent_report _ _⟩

/-- Settles O55: `rst` empties the log, and every other step appends one consistent report. -/
theorem stepKeepsLogConsistent : Obligations.StepKeepsLogConsistent := by
  intro s t hs h
  obtain ⟨rest, -, rfl⟩ | ⟨-, inp, rest, hp⟩ := step_rst_or_presents h
  · simp [LogConsistent]
  · obtain ⟨o, hout, ho⟩ := step_presents_reportConsistent hp h
    intro o' ho'
    rw [hout, List.mem_append, List.mem_singleton] at ho'
    obtain ho' | rfl := ho'
    · exact hs o' ho'
    · exact ho

/-- Settles O48: a consistent report with an error continues, and the block halts only on the outcome `Halt`. -/
theorem everyErrorContinues : Obligations.EveryErrorContinues := by
  intro s t inp rest hr hp h
  obtain ⟨o, hout, hrun⟩ := step_presents_run_iff hr hp h
  obtain ⟨o', hout', ho⟩ := step_presents_reportConsistent hp h
  obtain rfl : o = o' := by simpa [hout] using hout'
  refine ⟨o, hout, fun he => ?_⟩
  have hcont : o.outcome = .continues := continues_of_errors_ne_nil ho he
  refine ⟨hcont, ?_⟩
  cases ht : t.run with
  | running => rfl
  | halted => cases hcont.symm.trans (hrun.mp ht)

/-- Settles O45: the codes, classes and flags, status by status, and the report of HALT. -/
theorem statusCodesAreTheTables : Obligations.StatusCodesAreTheTables := by
  refine ⟨rfl, rfl, rfl, rfl, rfl, rfl, fun _ => rfl, rfl, rfl, rfl, rfl, fun st => ?_, fun s => ?_⟩
  · cases st <;> decide
  · exact ⟨_, haltOut s.M, exec_eq .halt s, rfl, rfl⟩

end Sys2Proof.Machine
end

section
/-! PROOFS. Who raises each error class, and what is left after it (60_exceptions.md R83, R87). -/

namespace Sys2Proof.Machine

/-! ### The failures of the ALU -/

/-- When an ALU operation fails on the values 0..31 (42_alu.md R67, R74). -/
def AluOp.Fails (k : AluOp) (x y : Nat) : Prop :=
  match k with
  | .add => 31 < x + y
  | .sub => x < y
  | .mul => 31 < x * y
  | .div => y = 0

/-- What a failing ALU operation writes: SUB clamps to zero, the others write nothing (42_alu.md R68). -/
def AluOp.failureAction : AluOp → AluAction
  | .sub => .write 0#5
  | .add => .noWrite
  | .mul => .noWrite
  | .div => .noWrite

/-- The table of the ALU in two halves, the failures and the successes. -/
theorem aluResult_fails_or_ok (k : AluOp) (a : Idx) (imm : Word) (s : State) :
    (k.Fails (s.readM a).toNat imm.toNat ∧ aluResult k a imm s = ⟨k.failure, k.failureAction⟩) ∨
      (¬ k.Fails (s.readM a).toNat imm.toNat ∧ (aluResult k a imm s).status = .ok) := by
  obtain ⟨hadd, hsub, hmul, hdiv⟩ := aluResult_table a imm s
  cases k with
  | add | sub | mul =>
    simp only [hadd, hsub, hmul]
    split
    · exact .inr ⟨Nat.not_lt.mpr ‹_›, rfl⟩
    · exact .inl ⟨Nat.not_le.mp ‹_›, rfl⟩
  | div =>
    rw [hdiv]
    split
    · exact .inl ⟨‹_›, rfl⟩
    · exact .inr ⟨‹_›, rfl⟩

theorem aluResult_of_fails {k : AluOp} {a : Idx} {imm : Word} {s : State}
    (hf : k.Fails (s.readM a).toNat imm.toNat) : aluResult k a imm s = ⟨k.failure, k.failureAction⟩ := by
  obtain ⟨-, hres⟩ | ⟨hnf, -⟩ := aluResult_fails_or_ok k a imm s
  · exact hres
  · exact absurd hf hnf

theorem aluResult_status_eq_failure_iff {k : AluOp} {a : Idx} {imm : Word} {s : State} :
    (aluResult k a imm s).status = k.failure ↔ k.Fails (s.readM a).toNat imm.toNat := by
  obtain ⟨hf, hres⟩ | ⟨hnf, hok⟩ := aluResult_fails_or_ok k a imm s
  · simp [hf, hres]
  · simp [hnf, hok, k.failure_ne_ok.symm]

/-- The one error that an ALU instruction can report. -/
theorem mem_errors_aluOut_iff {k : AluOp} {a : Idx} {imm : Word} {s : State} {m : RegFile} {e : ErrorKind} :
    e ∈ (aluOut k (aluResult k a imm s).status m).errors ↔
      k.Fails (s.readM a).toNat imm.toNat ∧ e = k.failureKind := by
  rw [← aluResult_status_eq_failure_iff, errors_aluOut]
  split <;> simp [*]

/-! ### Who raises each error class -/

/-- The table of 60_exceptions.md R83: the errors raised on what the decoder answers, in the state `s`. -/
inductive Raises (s : State) : Except TokenField Instr → ErrorKind → Prop where
  | malformedToken (f : TokenField) : Raises s (.error f) (.malformedToken f)
  | unknownOpcode (op : Opcode) : Raises s (.ok (.invalid op)) .unknownOpcode
  | addOverflow {a : Idx} {imm : Word} (h : 31 < (s.readM a).toNat + imm.toNat) :
      Raises s (.ok (.add a imm)) .arithmeticOverflow
  | mulOverflow {a : Idx} {imm : Word} (h : 31 < (s.readM a).toNat * imm.toNat) :
      Raises s (.ok (.mul a imm)) .arithmeticOverflow
  | subUnderflow {a : Idx} {imm : Word} (h : (s.readM a).toNat < imm.toNat) :
      Raises s (.ok (.sub a imm)) .arithmeticUnderflow
  | divByZero (a : Idx) : Raises s (.ok (.div a 0#5)) .divisionByZero

theorem mem_errors_malformedToken_iff {s : State} {f : TokenField} {e : ErrorKind} :
    e ∈ (errorOut (.malformedToken f)).errors ↔ Raises s (.error f) e := by
  rw [errors_errorOut, List.mem_singleton]
  exact ⟨fun he => he ▸ .malformedToken f, fun | .malformedToken _ => rfl⟩

/-- The errors that an instruction reports are those of the table. -/
theorem mem_errors_report_iff {i : Instr} {s : State} {e : ErrorKind} :
    e ∈ (report i s).errors ↔ Raises s (.ok i) e := by
  cases i with
  | add => exact mem_errors_aluOut_iff.trans ⟨fun ⟨hf, he⟩ => he ▸ .addOverflow hf, fun | .addOverflow h => ⟨h, rfl⟩⟩
  | mul => exact mem_errors_aluOut_iff.trans ⟨fun ⟨hf, he⟩ => he ▸ .mulOverflow hf, fun | .mulOverflow h => ⟨h, rfl⟩⟩
  | sub => exact mem_errors_aluOut_iff.trans ⟨fun ⟨hf, he⟩ => he ▸ .subUnderflow hf, fun | .subUnderflow h => ⟨h, rfl⟩⟩
  | div a imm =>
    refine mem_errors_aluOut_iff.trans ⟨?_, fun | .divByZero _ => ⟨rfl, rfl⟩⟩
    rintro ⟨hf, rfl⟩
    obtain rfl : imm = 0#5 := BitVec.eq_of_toNat_eq hf
    exact .divByZero a
  | invalid op => exact List.mem_singleton.trans ⟨fun he => he ▸ .unknownOpcode op, fun | .unknownOpcode _ => rfl⟩
  | _ => exact ⟨nofun, nofun⟩

theorem step_presents_errors {s t : State} {inp : StepInput} {rest : List Stimulus} (hp : Presents s inp rest)
    (h : step s = .next t) :
    ∃ o, t.outputs = s.outputs ++ [o] ∧ ∀ e, e ∈ o.errors ↔ Raises s (decode inp) e := by
  obtain ⟨f, hd, rfl⟩ | ⟨i, hd, he⟩ := step_presents_cases hp h
  · exact ⟨errorOut (.malformedToken f), raise_outputs .., fun e => hd ▸ mem_errors_malformedToken_iff⟩
  · obtain rfl := exec_eq_next_iff.mp he
    refine ⟨report i s, ?_, fun e => hd ▸ mem_errors_report_iff⟩
    simp [report_congr (s := s) (s' := { s with input := rest }) rfl i]

theorem raises_malformedToken_iff {s : State} {d : Except TokenField Instr} {f : TokenField} :
    Raises s d (.malformedToken f) ↔ d = .error f := by
  constructor
  · rintro ⟨⟩
    rfl
  · rintro rfl
    exact .malformedToken f

/-- The decoder answers an unknown opcode exactly for an unmapped opcode (40_control.md R60). -/
theorem raises_unknownOpcode_iff {s : State} {inp : StepInput} :
    Raises s (decode inp) .unknownOpcode ↔ ∃ op, inp.op = .bits op ∧ opclass op = .invalid := by
  constructor
  · intro hraise
    cases hd : decode inp with
    | error f =>
      rw [hd] at hraise
      cases hraise
    | ok i =>
      rw [hd] at hraise
      obtain ⟨op, a, imm, fa, hop, hk, -⟩ := decode_ok_cases hd
      cases hraise
      exact ⟨op, hop, hk⟩
  · rintro ⟨op, hop, hk⟩
    rw [decode_of_opclass_invalid hop hk]
    exact .unknownOpcode op

theorem raises_arithmeticOverflow_iff {s : State} {d : Except TokenField Instr} :
    Raises s d .arithmeticOverflow ↔
      ∃ a imm, (d = .ok (.add a imm) ∧ 31 < (s.readM a).toNat + imm.toNat) ∨
        (d = .ok (.mul a imm) ∧ 31 < (s.readM a).toNat * imm.toNat) := by
  constructor
  · intro hraise
    cases hraise with
    | addOverflow h => exact ⟨_, _, .inl ⟨rfl, h⟩⟩
    | mulOverflow h => exact ⟨_, _, .inr ⟨rfl, h⟩⟩
  · rintro ⟨a, imm, ⟨rfl, h⟩ | ⟨rfl, h⟩⟩
    · exact .addOverflow h
    · exact .mulOverflow h

theorem raises_arithmeticUnderflow_iff {s : State} {d : Except TokenField Instr} :
    Raises s d .arithmeticUnderflow ↔ ∃ a imm, d = .ok (.sub a imm) ∧ (s.readM a).toNat < imm.toNat := by
  constructor
  · intro hraise
    cases hraise with
    | subUnderflow h => exact ⟨_, _, rfl, h⟩
  · rintro ⟨a, imm, rfl, h⟩
    exact .subUnderflow h

theorem raises_divisionByZero_iff {s : State} {d : Except TokenField Instr} :
    Raises s d .divisionByZero ↔ ∃ a, d = .ok (.div a 0#5) := by
  constructor
  · rintro ⟨⟩
    exact ⟨_, rfl⟩
  · rintro ⟨a, rfl⟩
    exact .divByZero a

/-- Settles O46: the reported errors are those of the table, read class by class. -/
theorem eachErrorIsRaisedExactlyWhenItsRuleSays : Obligations.EachErrorIsRaisedExactlyWhenItsRuleSays := by
  intro s t inp rest _ hp h
  obtain ⟨o, hout, hmem⟩ := step_presents_errors hp h
  exact ⟨o, hout, fun f => (hmem _).trans raises_malformedToken_iff, (hmem _).trans raises_unknownOpcode_iff,
    (hmem _).trans raises_arithmeticOverflow_iff, (hmem _).trans raises_arithmeticUnderflow_iff,
    (hmem _).trans raises_divisionByZero_iff⟩

/-! ### State and events after each error -/

/-- The table of 60_exceptions.md R87, one row for each error class: the step from `s` to `t` on the decoder's answer
`d` reported `o`. -/
def ErrorRow (s t : State) (d : Except TokenField Instr) (o : StepOut) (e : ErrorKind) : Prop :=
  match e with
  | .malformedToken f => KeepsMemory s t ∧ o.events = [.error (.malformedToken f)]
  | .unknownOpcode => KeepsMemory s t ∧ o.events = [.error .unknownOpcode]
  | .arithmeticOverflow => KeepsMemory s t ∧ o.events = [.error .arithmeticOverflow, .renderMem t.M]
  | .arithmeticUnderflow =>
    ∃ a imm, d = .ok (.sub a imm) ∧ t.readM a = 0#5 ∧ KeepsOtherWords s t a ∧
      o.events = [.error .arithmeticUnderflow, .renderMem t.M]
  | .divisionByZero => KeepsMemory s t ∧ o.events = [.error .divisionByZero, .renderMem t.M]

theorem writeBack_of_fails {k : AluOp} {a : Idx} {imm : Word} {s : State}
    (hf : k.Fails (s.readM a).toNat imm.toNat) :
    writeBack (aluInstr k a imm) s = s.applyAction a k.failureAction := by
  cases k <;> simp only [aluInstr, writeBack, aluResult_of_fails hf]

/-- The error comes before the words that are left (42_alu.md R76). -/
theorem report_events_of_fails {k : AluOp} {a : Idx} {imm : Word} {s : State}
    (hf : k.Fails (s.readM a).toNat imm.toNat) :
    (report (aluInstr k a imm) s).events = [.error k.failureKind, .renderMem (writeBack (aluInstr k a imm) s).M] := by
  cases k <;> simp [aluInstr, report, aluOut, aluResult_of_fails hf]

theorem keepsMemory_writeBack_of_fails {k : AluOp} {a : Idx} {imm : Word} {s : State}
    (hf : k.Fails (s.readM a).toNat imm.toNat) (hact : k.failureAction = .noWrite) :
    KeepsMemory s (writeBack (aluInstr k a imm) s) := by
  rw [writeBack_of_fails hf, hact]
  exact fun _ => rfl

theorem readM_writeBack_sub_of_fails {a : Idx} {imm : Word} {s : State} (hf : (s.readM a).toNat < imm.toNat) :
    (writeBack (.sub a imm) s).readM a = 0#5 := by
  have hstate : writeBack (.sub a imm) s = s.writeM a 0#5 := writeBack_of_fails (k := .sub) hf
  rw [hstate, readM_writeM_same]

/-- What is left by an instruction that raises an error. -/
theorem errorRow_of_raises {i : Instr} {s : State} {e : ErrorKind} (h : Raises s (.ok i) e) :
    (writeBack i s).acc = s.acc ∧ ErrorRow s ((writeBack i s).finish (report i s)) (.ok i) (report i s) e := by
  refine ⟨?acc, ?row⟩
  case acc => exact writeBack_acc_of_ne s (by rintro a rfl; cases h)
  case row =>
    cases h with
    | unknownOpcode => exact ⟨fun _ => rfl, rfl⟩
    | addOverflow hf => exact ⟨keepsMemory_writeBack_of_fails (k := .add) hf rfl, report_events_of_fails (k := .add) hf⟩
    | mulOverflow hf => exact ⟨keepsMemory_writeBack_of_fails (k := .mul) hf rfl, report_events_of_fails (k := .mul) hf⟩
    | divByZero a =>
      have hf : AluOp.div.Fails (s.readM a).toNat (0#5 : Word).toNat := rfl
      exact ⟨keepsMemory_writeBack_of_fails hf rfl, report_events_of_fails hf⟩
    | @subUnderflow a imm hf =>
      exact ⟨a, imm, rfl, readM_writeBack_sub_of_fails hf, fun b hb => readM_applyAction_other s _ hb,
        report_events_of_fails (k := .sub) hf⟩

theorem step_presents_errorRow {s t : State} {inp : StepInput} {rest : List Stimulus} (hp : Presents s inp rest)
    (h : step s = .next t) :
    ∃ o, t.outputs = s.outputs ++ [o] ∧ ∀ e ∈ o.errors, t.acc = s.acc ∧ ErrorRow s t (decode inp) o e := by
  obtain ⟨f, hd, rfl⟩ | ⟨i, hd, he⟩ := step_presents_cases hp h
  · refine ⟨errorOut (.malformedToken f), raise_outputs .., fun e he => ?_⟩
    obtain rfl : e = .malformedToken f := List.mem_singleton.mp he
    exact ⟨rfl, fun _ => rfl, rfl⟩
  · obtain rfl := exec_eq_next_iff.mp he
    refine ⟨report i { s with input := rest }, by simp, fun e he => ?_⟩
    rw [hd]
    exact errorRow_of_raises (mem_errors_report_iff.mp he)

/-- Settles O47: the rows of the table, and `ACC` in all of them. -/
theorem stateAndEventsAfterEachError : Obligations.StateAndEventsAfterEachError := by
  intro s t inp rest _ hp h
  obtain ⟨o, hout, hrow⟩ := step_presents_errorRow hp h
  refine ⟨o, hout, fun hne => ?_, fun f he => (hrow _ he).2, fun he => (hrow _ he).2, fun he => (hrow _ he).2,
    fun he => (hrow _ he).2, fun he => (hrow _ he).2⟩
  obtain ⟨e, he⟩ := List.exists_mem_of_ne_nil _ hne
  exact (hrow e he).1

end Sys2Proof.Machine
end

section
/-! PROOFS. What reset leaves (70_reset_and_hazards.md R94, R96), and where the four invariants of the step begin. -/

namespace Sys2Proof.Machine

theorem readM_reset_of_two_le (b : Idx) : 2 ≤ b.toNat → State.reset.readM b = 0#5 := by
  revert b; decide

/-- Settles O21: only the first two words are seeded. -/
theorem resetValues : Obligations.ResetValues := ⟨rfl, rfl, readM_reset_of_two_le, rfl, rfl⟩

/-- The acts that stay behind `rst` are no part of the register file. -/
@[simp] theorem readM_resetWith (rest : List Stimulus) (b : Idx) :
    (resetWith rest).readM b = State.reset.readM b := rfl

/-- Settles O19: `rst` steps to the reset state with the remaining acts, in either run state. -/
theorem rstLoadsTheResetState : Obligations.RstLoadsTheResetState := by
  intro s rest h
  obtain ⟨hM0, hM1, hM, hacc, hrun⟩ := resetValues
  refine ⟨resetWith rest, step_of_rst h, ?_⟩
  simp only [readM_resetWith]
  exact ⟨hM0, hM1, hM, hacc, hrun⟩

theorem haltReported_of_running {s : State} (hr : s.run = .running) : HaltReported s := by
  intro hh
  cases hr.symm.trans hh

theorem logConsistent_of_outputs_nil {s : State} (h : s.outputs = []) : LogConsistent s := by
  simp [LogConsistent, h]

/-- Settles O56: the reset state is Running and its log is empty; it is what `rst` leaves with no act behind it. -/
theorem resetMeetsTheInvariants : Obligations.ResetMeetsTheInvariants :=
  ⟨haltReported_of_running rfl, runMatchesLog_resetWith [], logShowsState_resetWith [],
    logConsistent_of_outputs_nil rfl⟩

end Sys2Proof.Machine
end

section
/-! PROOFS. Words written out from the spec's formats decode (30_encoding.md R43, R47, R55). -/

namespace Sys2Proof

/-- A word and its follow-up token that are the encoding of a well-formed instruction decode to it. -/
theorem decode_ofWord_of_encode_eq {i : Instr} {I : InstrWord} {fu : Option Idx} (hwf : i.wellFormed = true)
    (he : encode i = ⟨I, fu⟩) : decode (StepInput.ofWord I (Tok.ofFollowUp fu)) = .ok i := by
  have hd : decode (StepInput.ofEncoded (encode i)) = .ok i := decodeOfEncodeIsTheInstruction i hwf
  rwa [he] at hd

/-- Settles O1: each written-out word, with its follow-up token (malformed where the opcode takes none), is the
encoding of the instruction it stands for. -/
theorem wordsOfEveryFamilyDecode : Obligations.WordsOfEveryFamilyDecode := by
  refine ⟨?halt, ?load, ?store, ?sub, ?compareTwo, ?clearOne, ?clearAll, ?invalid⟩
  case compareTwo => exact decode_ofWord_of_encode_eq (fu := some 6) rfl rfl
  case clearOne => exact decode_ofWord_of_encode_eq (fu := some 2) rfl rfl
  all_goals exact decode_ofWord_of_encode_eq (fu := none) rfl rfl

end Sys2Proof
end
